-- ==== Sys2Proof/Word.lean ====
section
/-!
DEFINITION. The word types of the core (00_scope.md R8, R13): every value is unsigned.
-/

namespace Sys2Proof

/-- An 8-bit register, memory byte or immediate (R20, R50). -/
abbrev Byte := BitVec 8

/-- A 16-bit value: `pc`, `I`, a stack entry, an instruction word (R24, R26, R27, R70). -/
abbrev Word := BitVec 16

/-- A 12-bit address operand `NNN` (R71). -/
abbrev Addr := BitVec 12

/-- A 4-bit field: a row count `N` or a key number (R71, R219). -/
abbrev Nibble := BitVec 4

/-- A register index `X` or `Y`; the file has exactly 16 slots, so every value names one (R23). -/
abbrev RegIdx := BitVec 4

end Sys2Proof
end

