-- ==== Sys2Proof/Syntax.lean ====
section
/-!
DEFINITION. The instructions: one constructor per row of spec/opcode_table.json (30_encoding.md R75, R77).
-/

namespace Sys2Proof

/-- The decoded instructions, with the fields of R71 already cut out. -/
inductive Instr where
  /-- CLS (R171). -/
  | cls
  /-- RET (R103). -/
  | ret
  /-- JP NNN (R104). -/
  | jp (nnn : Addr)
  /-- CALL NNN (R105). -/
  | call (nnn : Addr)
  /-- SE Vx, NN (R106). -/
  | seVB (x : RegIdx) (nn : Byte)
  /-- SNE Vx, NN (R107). -/
  | sneVB (x : RegIdx) (nn : Byte)
  /-- SE Vx, Vy (R108). -/
  | seVV (x y : RegIdx)
  /-- LD Vx, NN (R130). -/
  | ldVB (x : RegIdx) (nn : Byte)
  /-- ADD Vx, NN (R131). -/
  | addVB (x : RegIdx) (nn : Byte)
  /-- LD Vx, Vy (R132). -/
  | ldVV (x y : RegIdx)
  /-- OR Vx, Vy (R133). -/
  | orVV (x y : RegIdx)
  /-- AND Vx, Vy (R134). -/
  | andVV (x y : RegIdx)
  /-- XOR Vx, Vy (R135). -/
  | xorVV (x y : RegIdx)
  /-- ADD Vx, Vy (R136). -/
  | addVV (x y : RegIdx)
  /-- SUB Vx, Vy (R137). -/
  | subVV (x y : RegIdx)
  /-- SHR Vx, Vy (R139). -/
  | shrVV (x y : RegIdx)
  /-- SUBN Vx, Vy (R138). -/
  | subnVV (x y : RegIdx)
  /-- SHL Vx, Vy (R140). -/
  | shlVV (x y : RegIdx)
  /-- SNE Vx, Vy (R109). -/
  | sneVV (x y : RegIdx)
  /-- LD I, NNN (R170). -/
  | ldI (nnn : Addr)
  /-- JP V0, NNN (R110): in SHIFTED mode the same 12 bits are read as X and NN. -/
  | jpV0 (nnn : Addr)
  /-- RND Vx, NN (R145). -/
  | rnd (x : RegIdx) (nn : Byte)
  /-- DRW Vx, Vy, N (R173). -/
  | drw (x y : RegIdx) (n : Nibble)
  /-- SKP Vx (R111), admitted only under KEY_SKIPS. -/
  | skp (x : RegIdx)
  /-- SKNP Vx (R112), admitted only under KEY_SKIPS. -/
  | sknp (x : RegIdx)
deriving DecidableEq, Repr

end Sys2Proof
end

