-- ==== Sys2Proof/WellFormed.lean ====
section
/-!
DEFINITION. When an instruction is well formed, that is ADMITTED (00_scope.md R15): a row of the opcode table
enabled by the configuration. Every field of `Instr` has exactly the width of its encoding (R71), so every
operand value fits; the one check left is KEY_SKIPS (30_encoding.md R80).
-/

namespace Sys2Proof

/-- SKP and SKNP are admitted only when KEY_SKIPS is true; every other row always is (R76, R80). -/
def Instr.wf (keySkips : Bool) : Instr → Bool
  | .skp _ => keySkips
  | .sknp _ => keySkips
  | .cls | .ret | .jp _ | .call _ | .seVB _ _ | .sneVB _ _ | .seVV _ _ | .ldVB _ _ | .addVB _ _ | .ldVV _ _
  | .orVV _ _ | .andVV _ _ | .xorVV _ _ | .addVV _ _ | .subVV _ _ | .shrVV _ _ | .subnVV _ _ | .shlVV _ _
  | .sneVV _ _ | .ldI _ | .jpV0 _ | .rnd _ _ | .drw _ _ _ => true

end Sys2Proof
end

