-- ==== Sys2Proof/Decode.lean ====
section
/-!
DEFINITION. The decoder (30_encoding.md R70-R78) and the encoder written from the same rows (R72, R75, R77).
The concrete bit patterns are the spec's decision D3, marked there as general knowledge (log entry 12).
-/

namespace Sys2Proof

/-- `op`, the family nibble w[15:12] (R71). -/
def opField (w : Word) : Nibble := w.extractLsb' 12 4

/-- `X`, w[11:8] (R71). -/
def xField (w : Word) : RegIdx := w.extractLsb' 8 4

/-- `Y`, w[7:4] (R71). -/
def yField (w : Word) : RegIdx := w.extractLsb' 4 4

/-- `N`, w[3:0] (R71). -/
def nField (w : Word) : Nibble := w.extractLsb' 0 4

/-- `NN`, w[7:0] (R71). -/
def nnField (w : Word) : Byte := w.extractLsb' 0 8

/-- `NNN`, w[11:0] (R71). -/
def nnnField (w : Word) : Addr := w.extractLsb' 0 12

/-- Two consecutive bytes as a word: the one at the lower address is the high byte (R53, R54). -/
def wordOfBytes (hi lo : Byte) : Word := hi ++ lo

/-- Why a word or a byte sequence is no admitted instruction: the rows of R78, by family, and too few bytes. -/
inductive DecodeError where
  /-- 0x0NNN other than 0x00E0 and 0x00EE (R78). -/
  | family0
  /-- 0x5XYN with N ≠ 0 (R78). -/
  | family5
  /-- 0x8XYN with N in 8..D or F (R78). -/
  | family8
  /-- 0x9XYN with N ≠ 0 (R78). -/
  | family9
  /-- 0xEXNN that is neither SKP nor SKNP, or either of them while KEY_SKIPS is false (R78). -/
  | familyE
  /-- Every 0xFXNN (R78). -/
  | familyF
  /-- Fewer than the two bytes every instruction has (R70). -/
  | truncated
deriving DecidableEq, Repr

/-- The family-8 sub-map, selected by N (R77). -/
def decode8 (n : Nibble) (x y : RegIdx) : Except DecodeError Instr :=
  match n.toNat with
  | 0x0 => .ok (.ldVV x y)
  | 0x1 => .ok (.orVV x y)
  | 0x2 => .ok (.andVV x y)
  | 0x3 => .ok (.xorVV x y)
  | 0x4 => .ok (.addVV x y)
  | 0x5 => .ok (.subVV x y)
  | 0x6 => .ok (.shrVV x y)
  | 0x7 => .ok (.subnVV x y)
  | 0xE => .ok (.shlVV x y)
  | _ => .error .family8

/-- The decode function of R76, total on every 16-bit word. -/
def decodeWord (keySkips : Bool) (w : Word) : Except DecodeError Instr :=
  match (opField w).toNat with
  | 0x0 => if w = 0x00E0#16 then .ok .cls else if w = 0x00EE#16 then .ok .ret else .error .family0
  | 0x1 => .ok (.jp (nnnField w))
  | 0x2 => .ok (.call (nnnField w))
  | 0x3 => .ok (.seVB (xField w) (nnField w))
  | 0x4 => .ok (.sneVB (xField w) (nnField w))
  | 0x5 => if nField w = 0#4 then .ok (.seVV (xField w) (yField w)) else .error .family5
  | 0x6 => .ok (.ldVB (xField w) (nnField w))
  | 0x7 => .ok (.addVB (xField w) (nnField w))
  | 0x8 => decode8 (nField w) (xField w) (yField w)
  | 0x9 => if nField w = 0#4 then .ok (.sneVV (xField w) (yField w)) else .error .family9
  | 0xA => .ok (.ldI (nnnField w))
  | 0xB => .ok (.jpV0 (nnnField w))
  | 0xC => .ok (.rnd (xField w) (nnField w))
  | 0xD => .ok (.drw (xField w) (yField w) (nField w))
  | 0xE =>
    if keySkips = true ∧ nnField w = 0x9E#8 then .ok (.skp (xField w))
    else if keySkips = true ∧ nnField w = 0xA1#8 then .ok (.sknp (xField w))
    else .error .familyE
  | _ => .error .familyF

/-- Decoding from a byte sequence: one instruction and the bytes after it, total on any bytes (R70). -/
def decodeBytes (keySkips : Bool) : List Byte → Except DecodeError (Instr × List Byte)
  | hi :: lo :: rest =>
    match decodeWord keySkips (wordOfBytes hi lo) with
    | .ok i => .ok (i, rest)
    | .error e => .error e
  | _ => .error .truncated

/-- Format A12: `op ‖ NNN` (R72). -/
def encodeA12 (op : Nibble) (nnn : Addr) : Word := op ++ nnn

/-- Format RB: `op ‖ X ‖ NN` (R72). -/
def encodeRB (op : Nibble) (x : RegIdx) (nn : Byte) : Word := (op ++ x : BitVec 8) ++ nn

/-- Formats RR and RRN: `op ‖ X ‖ Y ‖ N` (R72). -/
def encodeRRN (op : Nibble) (x y : RegIdx) (n : Nibble) : Word := (op ++ x : BitVec 8) ++ (y ++ n : BitVec 8)

/-- The word of an instruction, by the formats of R72 and the patterns of R75 and R77. -/
def encode : Instr → Word
  | .cls => 0x00E0#16
  | .ret => 0x00EE#16
  | .jp nnn => encodeA12 0x1#4 nnn
  | .call nnn => encodeA12 0x2#4 nnn
  | .seVB x nn => encodeRB 0x3#4 x nn
  | .sneVB x nn => encodeRB 0x4#4 x nn
  | .seVV x y => encodeRRN 0x5#4 x y 0x0#4
  | .ldVB x nn => encodeRB 0x6#4 x nn
  | .addVB x nn => encodeRB 0x7#4 x nn
  | .ldVV x y => encodeRRN 0x8#4 x y 0x0#4
  | .orVV x y => encodeRRN 0x8#4 x y 0x1#4
  | .andVV x y => encodeRRN 0x8#4 x y 0x2#4
  | .xorVV x y => encodeRRN 0x8#4 x y 0x3#4
  | .addVV x y => encodeRRN 0x8#4 x y 0x4#4
  | .subVV x y => encodeRRN 0x8#4 x y 0x5#4
  | .shrVV x y => encodeRRN 0x8#4 x y 0x6#4
  | .subnVV x y => encodeRRN 0x8#4 x y 0x7#4
  | .shlVV x y => encodeRRN 0x8#4 x y 0xE#4
  | .sneVV x y => encodeRRN 0x9#4 x y 0x0#4
  | .ldI nnn => encodeA12 0xA#4 nnn
  | .jpV0 nnn => encodeA12 0xB#4 nnn
  | .rnd x nn => encodeRB 0xC#4 x nn
  | .drw x y n => encodeRRN 0xD#4 x y n
  | .skp x => encodeRB 0xE#4 x 0x9E#8
  | .sknp x => encodeRB 0xE#4 x 0xA1#8

/-- The high byte of a word, stored at the lower address (R53). -/
def hiByte (w : Word) : Byte := w.extractLsb' 8 8

/-- The low byte of a word, stored at the higher address (R53). -/
def loByte (w : Word) : Byte := w.extractLsb' 0 8

/-- An instruction as it lies in memory: two bytes, big-endian (R70). -/
def encodeBytes (i : Instr) : List Byte := [hiByte (encode i), loByte (encode i)]

/-- The `mask` of the instruction's row of opcode_table.json. -/
def Instr.rowMask : Instr → Word
  | .cls | .ret => 0xFFFF#16
  | .jp _ | .call _ | .ldI _ | .jpV0 _ => 0xF000#16
  | .seVB _ _ | .sneVB _ _ | .ldVB _ _ | .addVB _ _ | .rnd _ _ | .drw _ _ _ => 0xF000#16
  | .seVV _ _ | .sneVV _ _ | .ldVV _ _ | .orVV _ _ | .andVV _ _ | .xorVV _ _ | .addVV _ _ | .subVV _ _
  | .shrVV _ _ | .subnVV _ _ | .shlVV _ _ => 0xF00F#16
  | .skp _ | .sknp _ => 0xF0FF#16

/-- The `match` of the instruction's row of opcode_table.json. -/
def Instr.rowMatch : Instr → Word
  | .cls => 0x00E0#16
  | .ret => 0x00EE#16
  | .jp _ => 0x1000#16
  | .call _ => 0x2000#16
  | .seVB _ _ => 0x3000#16
  | .sneVB _ _ => 0x4000#16
  | .seVV _ _ => 0x5000#16
  | .ldVB _ _ => 0x6000#16
  | .addVB _ _ => 0x7000#16
  | .ldVV _ _ => 0x8000#16
  | .orVV _ _ => 0x8001#16
  | .andVV _ _ => 0x8002#16
  | .xorVV _ _ => 0x8003#16
  | .addVV _ _ => 0x8004#16
  | .subVV _ _ => 0x8005#16
  | .shrVV _ _ => 0x8006#16
  | .subnVV _ _ => 0x8007#16
  | .shlVV _ _ => 0x800E#16
  | .sneVV _ _ => 0x9000#16
  | .ldI _ => 0xA000#16
  | .jpV0 _ => 0xB000#16
  | .rnd _ _ => 0xC000#16
  | .drw _ _ _ => 0xD000#16
  | .skp _ => 0xE09E#16
  | .sknp _ => 0xE0A1#16

/-- What the decoder reads from an instruction whose bits are `w`, numbered as opcode_table.json numbers them:
one 16-bit word, laid out big-endian, given to `decodeBytes`. KEY_SKIPS is taken as true, so that the two
optional rows of the table are read too (log entry 9). -/
def decodeTableWord (nbits w : Nat) : Option Instr :=
  let word := BitVec.ofNat 16 (w % 2 ^ nbits)
  match decodeBytes true [hiByte word, loByte word] with
  | .ok (i, _) => some i
  | .error _ => none

end Sys2Proof
end

