-- ==== Sys2Proof/Config.lean ====
section
/-!
DEFINITION. What is fixed when the machine is constructed (00_scope.md R6, R7; 10_state.md R31), and the two
free values of the model: the draws of the random byte and of the key poll (R15, R145, R219).
-/

namespace Sys2Proof

/-- SHIFT_JUMP_MODE: the variant of SHR, SHL and JP V0 (R31). -/
inductive ShiftJumpMode where
  | legacy
  | shifted
deriving DecidableEq, Repr

/-- VWRAP_MODE: the vertical rule of DRW (R31, R172). -/
inductive VwrapMode where
  | wrap
  | clip
deriving DecidableEq, Repr

/-- DRW_VF_MODE: what VF holds before the first pixel of DRW (R174). -/
inductive DrwVfMode where
  | clearThenOr
  | orIntoOld
deriving DecidableEq, Repr

/-- The configuration latches (R31): fixed at construction, read-only to programs. -/
structure Config where
  shiftJumpMode : ShiftJumpMode
  vwrapMode     : VwrapMode
  drwVfMode     : DrwVfMode
  /-- KEY_SKIPS: whether SKP and SKNP are admitted (R80). -/
  keySkips      : Bool
  gridW         : Nat
  gridH         : Nat
  stackDepth    : Nat
deriving DecidableEq, Repr

/-- The ranges R6 gives the numeric parameters: GRID_W, GRID_H ≥ 1 and STACK_DEPTH ≥ 16. -/
def Config.wf (c : Config) : Bool :=
  decide (1 ≤ c.gridW) && decide (1 ≤ c.gridH) && decide (16 ≤ c.stackDepth)

/-- The configuration `State.reset` is constructed with.
DESIGN CHOICE, unsafe (log entry 1): R6 leaves these as parameters. DRW_VF_MODE and KEY_SKIPS are the spec's
defaults, STACK_DEPTH its canonical value, the grid the base grid of 95_test_vectors.md; LEGACY and CLIP are
the model's. -/
def Config.base : Config :=
  { shiftJumpMode := .legacy
    vwrapMode := .clip
    drwVfMode := .clearThenOr
    keySkips := false
    gridW := 64
    gridH := 32
    stackDepth := 16 }

/-- MEM_SIZE (R6, R50). -/
abbrev memSize : Nat := 4096

/-- FONT_BASE (R6, R57). -/
abbrev fontBase : Nat := 0x050

/-- PROG_BASE (R6, R57). -/
abbrev progBase : Nat := 0x200

/-- The random byte of the n-th draw once no lined-up byte is left: a FREE VALUE, any byte (R145, D22).
It has no body, so nothing can be proved of it. Log entry 6. -/
opaque Config.rand8 : Nat → Byte

/-- The answer of the n-th key poll once no lined-up answer is left: a FREE VALUE, a key 0..15 or none
(R219, D23). It has no body, so nothing can be proved of it. Log entry 7. -/
opaque Config.keyPoll : Nat → Option Nibble

end Sys2Proof
end

