-- ==== Sys2Proof/Machine/State.lean ====
section
/-!
DEFINITION. The state of the machine (10_state.md, summary R39), the reasons a step can stop, and the state
right after construction (70_reset_and_hazards.md R250).
-/

namespace Sys2Proof.Machine

/-- The error kinds of 60_exceptions.md R200. -/
inductive ErrorKind where
  /-- RET with an empty call stack (R201). -/
  | stackUnderflow
  /-- CALL with a full call stack (R202). -/
  | stackOverflow
  /-- Pixel access outside the grid; no admitted instruction reaches it (R203). -/
  | outOfBounds
  /-- Construction with a program over 3584 bytes (R204). -/
  | programTooLarge
  /-- Field-extractor misuse; no step produces it (R205). -/
  | outOfRange
  /-- The fetched word is no admitted instruction (R206). -/
  | illegalInstruction
  /-- Construction with a font over 432 bytes (R208). -/
  | fontTooLarge
deriving DecidableEq, Repr

/-- Why a step stops with no next state. -/
inductive Fault where
  /-- Raised by `step` alone, when the fault latch already holds an error: the core is halted and has no
  transition (R207). Safe: the spec gives no step there; the step that RAISED the error is a next state. -/
  | halted (kind : ErrorKind)
deriving DecidableEq, Repr

/-- Why an instruction has no meaning in the model. -/
inductive Refusal where
  /-- An arm of `exec` that has no meaning yet. Safe: no claim can be proved through it. No arm uses it. -/
  | notModelled (mnemonic : String)
deriving DecidableEq, Repr

/-- Memory contents as (address, byte) pairs: addresses strictly rising and below 4096, no entry equal to
what an unlisted address reads as (0: the spec's zero fill, R57, D14). -/
abbrev Memory := List Host.Cell

/-- The pixels, row-major: `fb[row][col]`, row 0 at the top, column 0 at the left, true = lit (R33). -/
abbrev Framebuffer := List (List Bool)

/-- Everything the spec gives the machine (R39), the configuration latches beside it (R31), and the model's
own record of the two draw inputs (log entries 6 and 7). -/
structure State where
  /-- V[0..15]; V[15] is VF (R20, R21). -/
  v         : Vector Byte 16
  /-- The program counter (R24). -/
  pc        : Word
  /-- The index register I (R26). -/
  i         : Word
  /-- stack[0..STACK_DEPTH-1], stale entries included (R27, R28). -/
  stack     : List Word
  /-- The stack depth: 0 is empty, STACK_DEPTH is full (R27). -/
  sp        : Nat
  /-- The delay timer DT (R29). -/
  dt        : Byte
  /-- The sound timer ST (R29). -/
  st        : Byte
  /-- mem[0..4095] (R50). -/
  mem       : Memory
  /-- The fault latch: none, or the error a step returned (R36). -/
  fault     : Option ErrorKind
  /-- The framebuffer, owned by the adapter (R33). -/
  fb        : Framebuffer
  /-- How many redraws were requested (R34). -/
  redraws   : Nat
  /-- The configuration latches (R31). -/
  cfg       : Config
  /-- Model's own: random bytes the outside world has lined up, first to be drawn first. -/
  randIn    : List Byte
  /-- Model's own: how many random bytes have been drawn. -/
  randDraws : Nat
  /-- Model's own: key poll answers the outside world has lined up. -/
  keyIn     : List (Option Nibble)
  /-- Model's own: how many key polls have been made. -/
  keyDraws  : Nat
deriving DecidableEq, Repr

/-- The machine right after construction (R250) with the base configuration (log entry 1), DT_INIT = ST_INIT = 0
(log entry 2), an all-off framebuffer (log entry 3) and no font or program bytes (log entry 4); no draw has
been made and none is lined up (log entries 6, 7). -/
def State.reset : State :=
  { v := Vector.replicate 16 0
    pc := 0x0200
    i := 0
    stack := List.replicate 16 0
    sp := 0
    dt := 0
    st := 0
    mem := []
    fault := none
    fb := List.replicate 32 (List.replicate 64 false)
    redraws := 0
    cfg := Config.base
    randIn := []
    randDraws := 0
    keyIn := []
    keyDraws := 0 }

end Sys2Proof.Machine
end

