-- ==== Sys2Proof/Machine/Ops.lean ====
section
/-!
DEFINITION. The named operations over memory, registers, the call stack, the display adapter, the draw inputs,
and the raise of an error. Every meaning is written over these.
-/

namespace Sys2Proof.Machine

/-! ### Memory (20_memory.md) -/

/-- The byte listed at an address; an unlisted address reads 0 (R57, D14). -/
def Memory.lookup : Memory → Nat → Byte
  | [], _ => 0#8
  | (k, b) :: rest, a => if k = a then b else Memory.lookup rest a

/-- Put a byte at an address of the sorted list; writing 0 removes the entry (canonical form, log entry 10). -/
def Memory.put : Memory → Nat → Byte → Memory
  | [], a, b => if b = 0#8 then [] else [(a, b)]
  | (k, c) :: rest, a, b =>
    if a < k then (if b = 0#8 then (k, c) :: rest else (a, b) :: (k, c) :: rest)
    else if a = k then (if b = 0#8 then rest else (a, b) :: rest)
    else (k, c) :: Memory.put rest a b

/-- `MemRead(a, 1)`: the address is reduced modulo 4096 at the access (R52). -/
def Memory.read (m : Memory) (a : Nat) : Byte := Memory.lookup m (a % memSize)

/-- `MemRead(a, 2)`: the big-endian pair at `a`, `a + 1` (R54). -/
def Memory.read2 (m : Memory) (a : Nat) : Word := wordOfBytes (Memory.read m a) (Memory.read m (a + 1))

/-- `MemWrite(a, 1, b)`, used by construction only (R56). -/
def Memory.write (m : Memory) (a : Nat) (b : Byte) : Memory := Memory.put m (a % memSize) b

/-- Write a byte sequence from an address upward (R250). -/
def Memory.writeBytes (m : Memory) : Nat → List Byte → Memory
  | _, [] => m
  | a, b :: bs => Memory.writeBytes (Memory.write m a b) (a + 1) bs

/-- Addresses rise strictly from `lo`, stay below 4096, and no listed byte is 0. -/
def Memory.wfFrom : Nat → Memory → Bool
  | _, [] => true
  | lo, (a, b) :: rest => decide (lo ≤ a) && decide (a < memSize) && decide (b ≠ 0#8) && Memory.wfFrom (a + 1) rest

/-- The canonical form of memory. -/
def Memory.wf (m : Memory) : Bool := Memory.wfFrom 0 m

/-! ### Registers and the program counter (10_state.md R20-R25) -/

/-- VF = V[15], the flag register (R21). -/
def vf : RegIdx := 0xF#4

/-- Read V[x]; no register is hardwired and none is banked (R20, R23). -/
def State.reg (s : State) (x : RegIdx) : Byte := s.v[x.toNat]'x.isLt

/-- Write V[x] (R20). -/
def State.setReg (s : State) (x : RegIdx) (b : Byte) : State := { s with v := s.v.set x.toNat b x.isLt }

/-- `pc <- target` (R24). -/
def State.setPc (s : State) (target : Word) : State := { s with pc := target }

/-- The fetch advance, `pc <- (pc + 2) mod 2^16` (R101). -/
def State.advance (s : State) : State := s.setPc (s.pc + 2#16)

/-- The skip primitive on a condition (R102): pass over exactly one instruction word. -/
def State.skipIf (s : State) (c : Bool) : State := s.setPc (if c then s.pc + 2#16 else s.pc)

/-- The word at `pc` (R101). -/
def State.fetchWord (s : State) : Word := Memory.read2 s.mem s.pc.toNat

/-! ### Raising an error (00_scope.md R11; 60_exceptions.md R207, R211) -/

/-- The ONE operation that takes an error: the step ends in the state as it stands, with the fault latch set to
the kind. Nothing written earlier is undone, nothing is saved elsewhere, no vector is fetched (R211), and there
is no return from it (R212). -/
def raise (e : ErrorKind) (s : State) : Host.Outcome State Fault Refusal := .next { s with fault := some e }

/-- A computation inside a step: it goes on with a state, or raises an error in the state reached so far. -/
abbrev Run := Except (ErrorKind × State) State

/-- End a step: the state reached, or the raise. -/
def finish : Run → Host.Outcome State Fault Refusal
  | .ok s => .next s
  | .error (e, s) => raise e s

/-! ### The call stack (10_state.md R27, R28) -/

/-- `Push(a)`: fails on a full stack and then changes nothing (R28). -/
def push (a : Word) (s : State) : Except ErrorKind State :=
  if s.sp = s.cfg.stackDepth then .error .stackOverflow
  else .ok { s with stack := s.stack.set s.sp a, sp := s.sp + 1 }

/-- `Pop()`: fails on an empty stack and then changes nothing; the popped entry stays in the array (R28). -/
def pop (s : State) : Except ErrorKind (Word × State) :=
  if s.sp = 0 then .error .stackUnderflow
  else .ok (s.stack.getD (s.sp - 1) 0#16, { s with sp := s.sp - 1 })

/-! ### The display adapter (60_exceptions.md R216-R218, R224) -/

/-- The bit at a coordinate; false outside the stored rows. -/
def fbGet (fb : Framebuffer) (row col : Nat) : Bool := (fb.getD row []).getD col false

/-- The framebuffer with one bit replaced. -/
def fbSet (fb : Framebuffer) (row col : Nat) (b : Bool) : Framebuffer := fb.set row ((fb.getD row []).set col b)

/-- Whether a framebuffer has exactly GRID_H rows of GRID_W bits (R33). -/
def fbShape (c : Config) (fb : Framebuffer) : Bool :=
  decide (fb.length = c.gridH) && fb.all (fun row => decide (row.length = c.gridW))

/-- A grid of one bit value. -/
def fbFill (c : Config) (b : Bool) : Framebuffer := List.replicate c.gridH (List.replicate c.gridW b)

/-- The pixel of a state, for claims: `fb[row][col]` (R9). -/
def State.pixel (s : State) (row col : Nat) : Bool := fbGet s.fb row col

/-- Whether a coordinate lies in the adapter's grid (R216, R224). -/
def inGrid (c : Config) (row col : Nat) : Bool := decide (row < c.gridH) && decide (col < c.gridW)

/-- `PixelRead(row, col)` (R216). -/
def pixelRead (row col : Nat) (s : State) : Except ErrorKind Bool :=
  if inGrid s.cfg row col then .ok (fbGet s.fb row col) else .error .outOfBounds

/-- `PixelWrite(row, col, b)` (R217). -/
def pixelWrite (row col : Nat) (b : Bool) (s : State) : Except ErrorKind State :=
  if inGrid s.cfg row col then .ok { s with fb := fbSet s.fb row col b } else .error .outOfBounds

/-- `Redraw()` (R218). -/
def redraw (s : State) : State := { s with redraws := s.redraws + 1 }

/-! ### The draw inputs (R15, R145, R219) -/

/-- `Rand8()`: the next lined-up byte, else a free value; taken once per RND (R145, D22; log entry 6). -/
def drawRand (s : State) : Byte × State :=
  (s.randIn.headD (Config.rand8 s.randDraws), { s with randIn := s.randIn.tail, randDraws := s.randDraws + 1 })

/-- `KeyPoll()`: the next lined-up answer, else a free value; it changes no core state (R219, D23; log entry 7). -/
def pollKey (s : State) : Option Nibble × State :=
  (s.keyIn.headD (Config.keyPoll s.keyDraws), { s with keyIn := s.keyIn.tail, keyDraws := s.keyDraws + 1 })

end Sys2Proof.Machine
end

