-- ==== Sys2Proof/Machine/Flags.lean ====
section
/-!
DEFINITION. The results and flags of the ALU (41_alu.md R136-R142), and the one write of a result and a flag.
Every value is unsigned; sums and differences are exact and then reduced modulo 256 (R142).
-/

namespace Sys2Proof.Machine

/-- `(a + b) mod 256` (R131, R136). -/
def sumByte (a b : Byte) : Byte := BitVec.ofNat 8 (a.toNat + b.toNat)

/-- The carry out of bit 7: 1 iff `a + b ≥ 256` (R136). -/
def carryFlag (a b : Byte) : Byte := if 256 ≤ a.toNat + b.toNat then 1#8 else 0#8

/-- `(a - b) mod 256` (R137, R138). -/
def diffByte (a b : Byte) : Byte := BitVec.ofNat 8 (a.toNat + 256 - b.toNat)

/-- The inverted borrow of `a - b`: 0 iff `a < b` (R137, R138). -/
def noBorrowFlag (a b : Byte) : Byte := if a.toNat < b.toNat then 0#8 else 1#8

/-- `v >> 1` (R139). -/
def shrByte (v : Byte) : Byte := v >>> 1

/-- The bit SHR shifts out, `v & 1` (R139). -/
def shrFlag (v : Byte) : Byte := v &&& 1#8

/-- `(v << 1) mod 256` (R140). -/
def shlByte (v : Byte) : Byte := v <<< 1

/-- The bit SHL shifts out, `(v >> 7) & 1` (R140). -/
def shlFlag (v : Byte) : Byte := (v >>> 7) &&& 1#8

/-- Write a result to V[x] and then a flag to VF, in this order: with x = 0xF the flag survives (R141). -/
def writeResultFlag (x : RegIdx) (result flag : Byte) (s : State) : State := (s.setReg x result).setReg vf flag

end Sys2Proof.Machine
end

