-- ==== Sys2Proof/Machine/Operands.lean ====
section
/-!
DEFINITION. Operand assembly (30_encoding.md R73): zero extension, the two readings of the jump-with-offset
field (R110), the source of a shift (R139, R140), the key comparison (R111, R112) and DRW's coordinates (R172).
-/

namespace Sys2Proof.Machine

/-- `zext_16(NNN)` (R73). -/
def addrWord (nnn : Addr) : Word := nnn.setWidth 16

/-- `zext_16` of a byte (R110). -/
def byteWord (b : Byte) : Word := b.setWidth 16

/-- `x = NNN[11:8]`, the SHIFTED reading of a jump-with-offset field (R110). -/
def jumpReg (nnn : Addr) : RegIdx := nnn.extractLsb' 8 4

/-- `nn = NNN[7:0]`, the SHIFTED reading of a jump-with-offset field (R110). -/
def jumpOffset (nnn : Addr) : Byte := nnn.extractLsb' 0 8

/-- The target of JP V0 under SHIFT_JUMP_MODE (R110, D5, D10). -/
def jumpTarget (nnn : Addr) (s : State) : Word :=
  match s.cfg.shiftJumpMode with
  | .legacy => addrWord nnn + byteWord (s.reg 0#4)
  | .shifted => byteWord (s.reg (jumpReg nnn)) + byteWord (jumpOffset nnn)

/-- The value a shift shifts: V[Y] under LEGACY, V[X] under SHIFTED (R139, R140). -/
def shiftSource (x y : RegIdx) (s : State) : Byte :=
  match s.cfg.shiftJumpMode with
  | .legacy => s.reg y
  | .shifted => s.reg x

/-- Whether a poll answer equals a register: `k ≠ NONE and zext_8(k) = V[X]` (R111, D37). -/
def keyEquals (k : Option Nibble) (b : Byte) : Bool :=
  match k with
  | none => false
  | some k => decide (k.setWidth 8 = b)

/-- The row of sprite row `r`, or none where CLIP skips it (R172). -/
def drawRowOf (c : Config) (y0 r : Nat) : Option Nat :=
  match c.vwrapMode with
  | .wrap => some ((y0 + r) % c.gridH)
  | .clip => if y0 + r < c.gridH then some (y0 + r) else none

/-- The column of sprite bit `b`; horizontal wrap is unconditional (R172). -/
def drawColOf (c : Config) (x0 b : Nat) : Nat := (x0 + b) % c.gridW

/-- Bit `b` of a sprite row, most significant first: `(sprite >> (7 - b)) & 1` (R173). -/
def spriteBit (sprite : Byte) (b : Nat) : Bool := sprite.getLsbD (7 - b)

end Sys2Proof.Machine
end

