-- ==== Sys2Proof/Machine/Alu.lean ====
section
/-!
DEFINITION. ALU and random instructions (41_alu.md R130-R145). None changes pc, I, memory, the stack or the
framebuffer, and none can raise.
-/

namespace Sys2Proof.Machine

/-- LD Vx, NN (R130). -/
def execLdVB (x : RegIdx) (nn : Byte) (s : State) : Host.Outcome State Fault Refusal := .next (s.setReg x nn)

/-- ADD Vx, NN (R131): no carry is produced. -/
def execAddVB (x : RegIdx) (nn : Byte) (s : State) : Host.Outcome State Fault Refusal :=
  .next (s.setReg x (sumByte (s.reg x) nn))

/-- LD Vx, Vy (R132). -/
def execLdVV (x y : RegIdx) (s : State) : Host.Outcome State Fault Refusal := .next (s.setReg x (s.reg y))

/-- OR Vx, Vy (R133): VF is not written unless it is Vx (R143). -/
def execOrVV (x y : RegIdx) (s : State) : Host.Outcome State Fault Refusal :=
  .next (s.setReg x (s.reg x ||| s.reg y))

/-- AND Vx, Vy (R134): VF is not written unless it is Vx (R143). -/
def execAndVV (x y : RegIdx) (s : State) : Host.Outcome State Fault Refusal :=
  .next (s.setReg x (s.reg x &&& s.reg y))

/-- XOR Vx, Vy (R135): VF is not written unless it is Vx (R143). -/
def execXorVV (x y : RegIdx) (s : State) : Host.Outcome State Fault Refusal :=
  .next (s.setReg x (s.reg x ^^^ s.reg y))

/-- ADD Vx, Vy (R136). -/
def execAddVV (x y : RegIdx) (s : State) : Host.Outcome State Fault Refusal :=
  .next (writeResultFlag x (sumByte (s.reg x) (s.reg y)) (carryFlag (s.reg x) (s.reg y)) s)

/-- SUB Vx, Vy (R137): x − y. -/
def execSubVV (x y : RegIdx) (s : State) : Host.Outcome State Fault Refusal :=
  .next (writeResultFlag x (diffByte (s.reg x) (s.reg y)) (noBorrowFlag (s.reg x) (s.reg y)) s)

/-- SUBN Vx, Vy (R138): y − x. -/
def execSubnVV (x y : RegIdx) (s : State) : Host.Outcome State Fault Refusal :=
  .next (writeResultFlag x (diffByte (s.reg y) (s.reg x)) (noBorrowFlag (s.reg y) (s.reg x)) s)

/-- SHR Vx, Vy (R139). -/
def execShrVV (x y : RegIdx) (s : State) : Host.Outcome State Fault Refusal :=
  .next (writeResultFlag x (shrByte (shiftSource x y s)) (shrFlag (shiftSource x y s)) s)

/-- SHL Vx, Vy (R140). -/
def execShlVV (x y : RegIdx) (s : State) : Host.Outcome State Fault Refusal :=
  .next (writeResultFlag x (shlByte (shiftSource x y s)) (shlFlag (shiftSource x y s)) s)

/-- RND Vx, NN (R145): one draw, masked. -/
def execRnd (x : RegIdx) (nn : Byte) (s : State) : Host.Outcome State Fault Refusal :=
  .next ((drawRand s).2.setReg x ((drawRand s).1 &&& nn))

end Sys2Proof.Machine
end

