-- ==== Sys2Proof/Machine/Control.lean ====
section
/-!
DEFINITION. Control transfer and skips (40_control.md R103-R112). Inside a meaning `pc` is already the
instruction's address + 2 (00_scope.md R12; log entry 15).
-/

namespace Sys2Proof.Machine

/-- RET (R103): pop into pc; StackUnderflow on an empty stack (R201). -/
def execRet (s : State) : Host.Outcome State Fault Refusal :=
  match pop s with
  | .ok (a, s') => .next (s'.setPc a)
  | .error e => raise e s

/-- JP NNN (R104). -/
def execJp (nnn : Addr) (s : State) : Host.Outcome State Fault Refusal := .next (s.setPc (addrWord nnn))

/-- CALL NNN (R105): push the address after the CALL, then jump; StackOverflow on a full stack (R202). -/
def execCall (nnn : Addr) (s : State) : Host.Outcome State Fault Refusal :=
  match push s.pc s with
  | .ok s' => .next (s'.setPc (addrWord nnn))
  | .error e => raise e s

/-- SE Vx, NN (R106). -/
def execSeVB (x : RegIdx) (nn : Byte) (s : State) : Host.Outcome State Fault Refusal :=
  .next (s.skipIf (decide (s.reg x = nn)))

/-- SNE Vx, NN (R107). -/
def execSneVB (x : RegIdx) (nn : Byte) (s : State) : Host.Outcome State Fault Refusal :=
  .next (s.skipIf (decide (s.reg x ≠ nn)))

/-- SE Vx, Vy (R108). -/
def execSeVV (x y : RegIdx) (s : State) : Host.Outcome State Fault Refusal :=
  .next (s.skipIf (decide (s.reg x = s.reg y)))

/-- SNE Vx, Vy (R109). -/
def execSneVV (x y : RegIdx) (s : State) : Host.Outcome State Fault Refusal :=
  .next (s.skipIf (decide (s.reg x ≠ s.reg y)))

/-- JP V0, NNN (R110). -/
def execJpV0 (nnn : Addr) (s : State) : Host.Outcome State Fault Refusal := .next (s.setPc (jumpTarget nnn s))

/-- SKP Vx (R111): one poll; skip if a key is pressed and it equals V[X]. -/
def execSkp (x : RegIdx) (s : State) : Host.Outcome State Fault Refusal :=
  .next ((pollKey s).2.skipIf (keyEquals (pollKey s).1 (s.reg x)))

/-- SKNP Vx (R112): one poll; skip if no key is pressed or it differs from V[X]. -/
def execSknp (x : RegIdx) (s : State) : Host.Outcome State Fault Refusal :=
  .next ((pollKey s).2.skipIf (!keyEquals (pollKey s).1 (s.reg x)))

end Sys2Proof.Machine
end

