-- ==== Sys2Proof/Machine/Display.lean ====
section
/-!
DEFINITION. The index register and the display (42_index_display.md R170-R177).
-/

namespace Sys2Proof.Machine

/-- LD I, NNN (R170). -/
def execLdI (nnn : Addr) (s : State) : Host.Outcome State Fault Refusal := .next { s with i := addrWord nnn }

/-- CLS (R171): every pixel off, one redraw. The visiting order cannot be observed, so the grid is set at once
(log entry 17); `clearPixels` is R171's loop. -/
def execCls (s : State) : Host.Outcome State Fault Refusal := .next (redraw { s with fb := fbFill s.cfg false })

/-- One pixel write inside a step. -/
def writePixelRun (row col : Nat) (b : Bool) (s : State) : Run :=
  match pixelWrite row col b s with
  | .ok s' => .ok s'
  | .error e => .error (e, s)

/-- The loop of R171 over every row and column, through PixelWrite. -/
def clearPixels (s : State) : Run :=
  (List.range s.cfg.gridH).foldlM
    (fun s row => (List.range s.cfg.gridW).foldlM (fun s col => writePixelRun row col false s) s) s

/-- One pixel of DRW (R173): read, XOR, write back, and OR the collision into VF (R174). -/
def drawPixel (sprite : Byte) (row x0 : Nat) (s : State) (b : Nat) : Run :=
  match pixelRead row (drawColOf s.cfg x0 b) s with
  | .error e => .error (e, s)
  | .ok cur =>
    match pixelWrite row (drawColOf s.cfg x0 b) (cur ^^ spriteBit sprite b) s with
    | .error e => .error (e, s)
    | .ok s' => .ok (s'.setReg vf (s'.reg vf ||| (if cur && spriteBit sprite b then 1#8 else 0#8)))

/-- One sprite row of DRW (R173): its byte is read, and a row that CLIP skips draws nothing. -/
def drawRow (x0 y0 base : Nat) (s : State) (r : Nat) : Run :=
  match drawRowOf s.cfg y0 r with
  | none => .ok s
  | some row => (List.range 8).foldlM (drawPixel (Memory.read s.mem (base + r)) row x0) s

/-- VF before the first pixel (R174). -/
def drawStart (s : State) : State :=
  match s.cfg.drwVfMode with
  | .clearThenOr => s.setReg vf 0#8
  | .orIntoOld => s

/-- DRW Vx, Vy, N (R173): the coordinates and I are read before any write, the rows are drawn in order, and one
redraw is requested after them (R175). -/
def execDrw (x y : RegIdx) (n : Nibble) (s : State) : Host.Outcome State Fault Refusal :=
  finish
    (match (List.range n.toNat).foldlM (drawRow (s.reg x).toNat (s.reg y).toNat s.i.toNat) (drawStart s) with
     | .ok t => .ok (redraw t)
     | .error e => .error e)

end Sys2Proof.Machine
end

