-- ==== Sys2Proof/Machine/Fetch.lean ====
section
/-!
DEFINITION. Fetching (40_control.md R101): what a step decodes, and placing a word where it is fetched from.
-/

namespace Sys2Proof.Machine

/-- The instruction the next step decodes: the big-endian word at pc, under the KEY_SKIPS latch (R76, R101). -/
def State.fetched (s : State) : Except DecodeError Instr := decodeWord s.cfg.keySkips s.fetchWord

/-- A word stored at an address, high byte first (R53). -/
def Memory.writeWord (m : Memory) (a : Nat) (w : Word) : Memory :=
  Memory.write (Memory.write m a (hiByte w)) (a + 1) (loByte w)

/-- Whether a word decodes only under KEY_SKIPS (R80). -/
def needsKeySkips (w : Word) : Bool :=
  match decodeWord false w, decodeWord true w with
  | .error _, .ok _ => true
  | _, _ => false

/-- The state with a word where the next step fetches it, KEY_SKIPS on if the word needs it, and no fault
latched, since a halted core fetches nothing (R207). Log entries 4 and 9. -/
def placeWord (s : State) (w : Word) : State :=
  { s with
    mem := Memory.writeWord s.mem s.pc.toNat w
    cfg := { s.cfg with keySkips := s.cfg.keySkips || needsKeySkips w }
    fault := none }

end Sys2Proof.Machine
end

