-- ==== Sys2Proof/Machine/Step.lean ====
section
/-!
DEFINITION. One step request (40_control.md R100) and placing an instruction for it.
-/

namespace Sys2Proof.Machine

/-- `step()` (R100): no transition while a fault is latched (R207); else fetch, advance pc, decode, and execute
exactly one instruction, or raise IllegalInstruction after the advance (R206). -/
def step (s : State) : Host.Outcome State Fault Refusal :=
  match s.fault with
  | some e => .fault (.halted e)
  | none =>
    match s.fetched with
    | .ok i => exec i s.advance
    | .error _ => raise .illegalInstruction s.advance

/-- The state with an opcode-table word, of `nbits` bits, stored where `step` fetches its next instruction. It
stands for constructing the machine with that word in PROGRAM and KEY_SKIPS as the word needs (log entries 4, 9). -/
def State.withFetchWord (s : State) (nbits w : Nat) : State := placeWord s (BitVec.ofNat 16 (w % 2 ^ nbits))

end Sys2Proof.Machine
end

