-- ==== Sys2Proof/Machine/Construct.lean ====
section
/-!
DEFINITION. Construction, the only reset (70_reset_and_hazards.md R250-R253).
-/

namespace Sys2Proof.Machine

/-- The inputs of the construction port (R221, R6). -/
structure ConstructInputs where
  cfg     : Config
  font    : List Byte
  program : List Byte
  dtInit  : Byte
  stInit  : Byte
  fbInit  : Framebuffer
deriving DecidableEq, Repr

/-- The ranges R6 gives the parameters: the host supplies a legal configuration and a GRID_H × GRID_W FB_INIT. -/
def ConstructInputs.wf (p : ConstructInputs) : Bool := p.cfg.wf && fbShape p.cfg p.fbInit

/-- The memory image of construction: zero, then the font at FONT_BASE, then the program at PROG_BASE (R250). -/
def constructMem (font program : List Byte) : Memory :=
  Memory.writeBytes (Memory.writeBytes [] fontBase font) progBase program

/-- `Construct()` (R250): ProgramTooLarge is checked first, FontTooLarge second (R251), and either leaves no
machine. -/
def construct (p : ConstructInputs) : Except ErrorKind State :=
  if memSize - progBase < p.program.length then .error .programTooLarge
  else if progBase - fontBase < p.font.length then .error .fontTooLarge
  else .ok
    { v := Vector.replicate 16 0
      pc := BitVec.ofNat 16 progBase
      i := 0
      stack := List.replicate p.cfg.stackDepth 0
      sp := 0
      dt := p.dtInit
      st := p.stInit
      mem := constructMem p.font p.program
      fault := none
      fb := p.fbInit
      redraws := 0
      cfg := p.cfg
      randIn := []
      randDraws := 0
      keyIn := []
      keyDraws := 0 }

/-- The inputs that `State.reset` stands for: the base configuration, no font or program bytes, zero timers, an
all-off framebuffer. DESIGN CHOICE, unsafe (log entries 1-4). -/
def ConstructInputs.base : ConstructInputs :=
  { cfg := Config.base
    font := []
    program := []
    dtInit := 0
    stInit := 0
    fbInit := fbFill Config.base false }

end Sys2Proof.Machine
end

