-- ==== Sys2Proof/Machine/Timers.lean ====
section
/-!
DEFINITION. The timer subsystem (60_exceptions.md R213): an atomic event between steps, never inside one (R214).
-/

namespace Sys2Proof.Machine

/-- One timer's decrement, stopping at 0 (R213). -/
def decTimer (b : Byte) : Byte := if b = 0#8 then 0#8 else b - 1#8

/-- `Tick()` (R213): each timer on its own; nothing else is read or written. -/
def tick (s : State) : State := { s with dt := decTimer s.dt, st := decTimer s.st }

/-- The tone output, `ST ≠ 0` (10_state.md R30). -/
def State.tone (s : State) : Bool := decide (s.st ≠ 0#8)

end Sys2Proof.Machine
end

