-- ==== Sys2Proof/Machine/Port.lean ====
section
/-!
DEFINITION. The host's side of the core (60_exceptions.md §5): error codes, the step answer, the readable outputs,
and the host's events in any schedule (R214, R220, R223, R225).
-/

namespace Sys2Proof.Machine

/-- The numeric codes of R200; 0 is NONE / Ok. -/
def ErrorKind.code : ErrorKind → Nat
  | .stackUnderflow => 1
  | .stackOverflow => 2
  | .outOfBounds => 3
  | .programTooLarge => 4
  | .outOfRange => 5
  | .illegalInstruction => 6
  | .fontTooLarge => 7

/-- The code the step port answers when a step has ended in this state: 0 for Ok, else the error's (R220).
DESIGN CHOICE (log entry 22): before any step has been issued there is no answer to give, and the spec states no value
for a host that reads one (R223); this reads the latch there too, which is empty after construction, so it gives 0. -/
def State.stepAnswer (s : State) : Nat :=
  match s.fault with
  | none => 0
  | some e => e.code

/-- What the host can read between events (R223): the core's outputs and the adapter's side. -/
structure HostOutputs where
  dt      : Byte
  st      : Byte
  tone    : Bool
  fault   : Option ErrorKind
  answer  : Nat
  fb      : Framebuffer
  redraws : Nat
deriving DecidableEq, Repr

/-- The readable outputs of a state (R223). The answer before the first step is the model's choice (log entry 22). -/
def State.outputs (s : State) : HostOutputs :=
  { dt := s.dt
    st := s.st
    tone := s.tone
    fault := s.fault
    answer := s.stepAnswer
    fb := s.fb
    redraws := s.redraws }

/-- What the host can do to a constructed machine. -/
inductive Event where
  /-- One step request (R220). -/
  | step
  /-- One timer tick (R213). -/
  | tick
  /-- The termination signal: no effect on core state, and no step follows (R225; for ticks, log entry 21). -/
  | terminate
deriving DecidableEq, Repr

/-- What a schedule does after the termination signal. No step is taken (R225). DESIGN CHOICE (log entry 21): the
spec does not say whether timers stop then (R225, R261), so each tick that the schedule still holds lowers the timers
as R213 says; a schedule with no later tick is the machine whose timers stop. -/
def afterTermination : List Event → State → State
  | [], s => s
  | .tick :: es, s => afterTermination es (tick s)
  | .step :: es, s => afterTermination es s
  | .terminate :: es, s => afterTermination es s

/-- A schedule of events, in the host's order (R214). It ends at the first step that has no transition; after
termination ticks alone have an effect, the model's choice of log entry 21. -/
def runEvents : List Event → State → Host.Outcome State Fault Refusal
  | [], s => .next s
  | .step :: es, s =>
    match step s with
    | .next t => runEvents es t
    | .fault f => .fault f
    | .refused r => .refused r
  | .tick :: es, s => runEvents es (tick s)
  | .terminate :: es, s => .next (afterTermination es s)

end Sys2Proof.Machine
end

