-- ==== Sys2Proof/Safety.lean ====
section
/-!
DEFINITION. The terms claims use: the invariant of the machine, the frames of its instructions, and what an
illegal word is by R78's list.
-/

namespace Sys2Proof.Machine

/-- The machine's invariant: a configuration in R6's ranges, a stack array of STACK_DEPTH entries with its depth
in range (R27), memory in canonical form, and a framebuffer of GRID_H rows of GRID_W bits (R33). -/
def State.wf (s : State) : Bool :=
  s.cfg.wf && decide (s.stack.length = s.cfg.stackDepth) && decide (s.sp ≤ s.cfg.stackDepth) &&
    Memory.wf s.mem && fbShape s.cfg s.fb

/-- `I` never exceeds 0x0FFF (R26). -/
def State.indexBounded (s : State) : Bool := decide (s.i.toNat ≤ 0x0FFF)

/-- An outcome with its next state changed. -/
def mapNext (f : State → State) : Host.Outcome State Fault Refusal → Host.Outcome State Fault Refusal
  | .next s => .next (f s)
  | .fault e => .fault e
  | .refused r => .refused r

/-- Every byte of memory reads as before. -/
def SameMemory (s t : State) : Prop := ∀ a, Memory.read t.mem a = Memory.read s.mem a

/-- The frame of a register instruction: only the registers of `ws` may differ, every other register and every
other piece of state is as before. -/
def OnlyRegs (ws : List RegIdx) (s t : State) : Prop :=
  (∀ r, r ∉ ws → t.reg r = s.reg r) ∧ SameMemory s t ∧ t = { s with v := t.v }

/-- The frame of a plain control transfer: only pc may differ. -/
def OnlyPc (s t : State) : Prop := (∀ r, t.reg r = s.reg r) ∧ SameMemory s t ∧ t = { s with pc := t.pc }

/-- The frame of RET and CALL: only pc, the stack array and its depth may differ. -/
def OnlyPcStack (s t : State) : Prop :=
  (∀ r, t.reg r = s.reg r) ∧ SameMemory s t ∧ t = { s with pc := t.pc, stack := t.stack, sp := t.sp }

/-- The frame of DRW: only VF, the pixels and the redraw count may differ. -/
def OnlyDrawn (s t : State) : Prop :=
  (∀ r, r ≠ vf → t.reg r = s.reg r) ∧ SameMemory s t ∧ t = { s with v := t.v, fb := t.fb, redraws := t.redraws }

/-- The illegal encodings, bullet by bullet as R78 lists them. -/
def IllegalWord (keySkips : Bool) (w : Word) : Prop :=
  (opField w = 0x0#4 ∧ w ≠ 0x00E0#16 ∧ w ≠ 0x00EE#16) ∨
  ((opField w = 0x5#4 ∨ opField w = 0x9#4) ∧ nField w ≠ 0#4) ∨
  (opField w = 0x8#4 ∧ nField w ∈ [0x8#4, 0x9#4, 0xA#4, 0xB#4, 0xC#4, 0xD#4, 0xF#4]) ∨
  (opField w = 0xE#4 ∧ (keySkips = false ∨ (nnField w ≠ 0x9E#8 ∧ nnField w ≠ 0xA1#8))) ∨
  opField w = 0xF#4

/-- The register an instruction names as its destination, if any (R21). -/
def destReg : Instr → Option RegIdx
  | .ldVB x _ | .addVB x _ | .rnd x _ => some x
  | .ldVV x _ | .orVV x _ | .andVV x _ | .xorVV x _ | .addVV x _ | .subVV x _ | .shrVV x _ | .subnVV x _
  | .shlVV x _ => some x
  | .cls | .ret | .jp _ | .call _ | .seVB _ _ | .sneVB _ _ | .seVV _ _ | .sneVV _ _ | .ldI _ | .jpV0 _
  | .drw _ _ _ | .skp _ | .sknp _ => none

/-- The instructions that write VF as a side effect, as R21 lists them. -/
def writesFlag : Instr → Bool
  | .addVV _ _ | .subVV _ _ | .subnVV _ _ | .shrVV _ _ | .shlVV _ _ | .drw _ _ _ => true
  | .cls | .ret | .jp _ | .call _ | .seVB _ _ | .sneVB _ _ | .seVV _ _ | .ldVB _ _ | .addVB _ _ | .ldVV _ _
  | .orVV _ _ | .andVV _ _ | .xorVV _ _ | .sneVV _ _ | .ldI _ | .jpV0 _ | .rnd _ _ | .skp _ | .sknp _ => false

/-- The two families SHIFT_JUMP_MODE selects: the shifts and the jump with offset (R31, R32). -/
def readsShiftMode : Instr → Bool
  | .shrVV _ _ | .shlVV _ _ | .jpV0 _ => true
  | .cls | .ret | .jp _ | .call _ | .seVB _ _ | .sneVB _ _ | .seVV _ _ | .ldVB _ _ | .addVB _ _ | .ldVV _ _
  | .orVV _ _ | .andVV _ _ | .xorVV _ _ | .addVV _ _ | .subVV _ _ | .subnVV _ _ | .sneVV _ _ | .ldI _ | .rnd _ _
  | .drw _ _ _ | .skp _ | .sknp _ => false

/-- The one family VWRAP_MODE selects: DRW (R31, R32). -/
def readsWrapMode : Instr → Bool
  | .drw _ _ _ => true
  | .cls | .ret | .jp _ | .call _ | .seVB _ _ | .sneVB _ _ | .seVV _ _ | .ldVB _ _ | .addVB _ _ | .ldVV _ _
  | .orVV _ _ | .andVV _ _ | .xorVV _ _ | .addVV _ _ | .subVV _ _ | .shrVV _ _ | .subnVV _ _ | .shlVV _ _
  | .sneVV _ _ | .ldI _ | .jpV0 _ | .rnd _ _ | .skp _ | .sknp _ => false

/-- The instructions that take a draw input: RND, SKP and SKNP (R145, R219). -/
def takesDraw : Instr → Bool
  | .rnd _ _ | .skp _ | .sknp _ => true
  | .cls | .ret | .jp _ | .call _ | .seVB _ _ | .sneVB _ _ | .seVV _ _ | .ldVB _ _ | .addVB _ _ | .ldVV _ _
  | .orVV _ _ | .andVV _ _ | .xorVV _ _ | .addVV _ _ | .subVV _ _ | .shrVV _ _ | .subnVV _ _ | .shlVV _ _
  | .sneVV _ _ | .ldI _ | .jpV0 _ | .drw _ _ _ => false

/-- The two instructions that use the call stack: RET and CALL (R27, R39). -/
def usesStack : Instr → Bool
  | .ret | .call _ => true
  | .cls | .jp _ | .seVB _ _ | .sneVB _ _ | .seVV _ _ | .ldVB _ _ | .addVB _ _ | .ldVV _ _
  | .orVV _ _ | .andVV _ _ | .xorVV _ _ | .addVV _ _ | .subVV _ _ | .shrVV _ _ | .subnVV _ _ | .shlVV _ _
  | .sneVV _ _ | .ldI _ | .jpV0 _ | .rnd _ _ | .drw _ _ _ | .skp _ | .sknp _ => false

/-- The two instructions that write pixels and request a redraw: CLS and DRW (R39). -/
def usesDisplay : Instr → Bool
  | .cls | .drw _ _ _ => true
  | .ret | .jp _ | .call _ | .seVB _ _ | .sneVB _ _ | .seVV _ _ | .ldVB _ _ | .addVB _ _ | .ldVV _ _
  | .orVV _ _ | .andVV _ _ | .xorVV _ _ | .addVV _ _ | .subVV _ _ | .shrVV _ _ | .subnVV _ _ | .shlVV _ _
  | .sneVV _ _ | .ldI _ | .jpV0 _ | .rnd _ _ | .skp _ | .sknp _ => false

/-- The control transfers: JP, CALL, RET, JP V0 and the skips (R113). -/
def transfersControl : Instr → Bool
  | .ret | .jp _ | .call _ | .seVB _ _ | .sneVB _ _ | .seVV _ _ | .sneVV _ _ | .jpV0 _ | .skp _ | .sknp _ => true
  | .cls | .ldVB _ _ | .addVB _ _ | .ldVV _ _ | .orVV _ _ | .andVV _ _ | .xorVV _ _ | .addVV _ _ | .subVV _ _
  | .shrVV _ _ | .subnVV _ _ | .shlVV _ _ | .ldI _ | .rnd _ _ | .drw _ _ _ => false

/-- Whether sprite bit (r, b) of a DRW with these start coordinates lands on a pixel (R172). -/
def drawHits (c : Config) (x0 y0 row col r b : Nat) : Bool :=
  decide (drawRowOf c y0 r = some row) && decide (drawColOf c x0 b = col)

/-- The sprite bits that land on a pixel, in drawing order: rows first, most significant bit first (R172, R177). -/
def drawBitsAt (s : State) (x0 y0 base n row col : Nat) : List Bool :=
  (List.range n).flatMap fun r =>
    ((List.range 8).filter fun b => drawHits s.cfg x0 y0 row col r b).map fun b =>
      spriteBit (Memory.read s.mem (base + r)) b

/-- The sprite bits that land on a pixel before visit (r, b) of a DRW, in drawing order (R177). -/
def drawBitsBefore (s : State) (x0 y0 base r b row col : Nat) : List Bool :=
  drawBitsAt s x0 y0 base r row col ++
    ((List.range b).filter fun b' => drawHits s.cfg x0 y0 row col r b').map fun b' =>
      spriteBit (Memory.read s.mem (base + r)) b'

/-- The parity of a list of bits: what XORing them all into a pixel does to it. -/
def parity (bs : List Bool) : Bool := bs.foldl (· ^^ ·) false

/-- No sprite of `n` rows overlaps itself through the wrap (R177). -/
def NoSelfOverlap (c : Config) (n : Nat) : Prop := 8 ≤ c.gridW ∧ (c.vwrapMode = .clip ∨ n ≤ c.gridH)

/-- Some drawn sprite bit is set on a pixel that is lit before the draw: a collision, where the sprite does not
overlap itself (R173, R174). -/
def Collides (s : State) (x0 y0 base n : Nat) : Prop :=
  ∃ r < n, ∃ row, drawRowOf s.cfg y0 r = some row ∧
    ∃ b < 8, spriteBit (Memory.read s.mem (base + r)) b = true ∧ s.pixel row (drawColOf s.cfg x0 b) = true

/-- Some visited sprite bit is set on a pixel that is lit when it is visited, with every earlier bit that landed on
it XORed in: a collision of any sprite, one that overlaps itself included (R173, R174, R177). -/
def CollidesInOrder (s : State) (x0 y0 base n : Nat) : Prop :=
  ∃ r < n, ∃ row, drawRowOf s.cfg y0 r = some row ∧
    ∃ b < 8, spriteBit (Memory.read s.mem (base + r)) b = true ∧
      (s.pixel row (drawColOf s.cfg x0 b) ^^
        parity (drawBitsBefore s x0 y0 base r b row (drawColOf s.cfg x0 b))) = true

/-- The state under other compatibility modes. -/
def State.withModes (sj : ShiftJumpMode) (vw : VwrapMode) (s : State) : State :=
  { s with cfg := { s.cfg with shiftJumpMode := sj, vwrapMode := vw } }

/-- The state with other values in its timers. -/
def State.withTimers (d t : Byte) (s : State) : State := { s with dt := d, st := t }

/-- The state with other draw inputs lined up and other draw counts. -/
def State.withDraws (ri : List Byte) (rd : Nat) (ki : List (Option Nibble)) (kd : Nat) (s : State) : State :=
  { s with randIn := ri, randDraws := rd, keyIn := ki, keyDraws := kd }

/-- An idle loop: the word at pc is a JP to pc itself (R261). -/
def State.idle (s : State) : Prop := ∃ nnn : Addr, s.fetched = .ok (.jp nnn) ∧ s.pc = addrWord nnn

end Sys2Proof.Machine
end

