-- ==== Sys2Proof/Certificates/Slice0/Obligations.lean ====
section
/-!
DEFINITION. The statements about the model, from the numbered rules of spec/.
A meaning runs with pc already at the instruction's address + 2 (R12): in a statement about `exec` the state's pc
is that value; in a statement about `step` it is the address fetched from.
-/

open Sys2Proof Sys2Proof.Machine

/-! ### Encoding -/

/-- Ten words written out from R75 and R77 decode to the instructions they stand for, and the tenth, 0xE59E, is
refused without KEY_SKIPS. -/
def Obligations.HandWrittenWordsDecode : Prop :=
  decodeWord false 0x00E0#16 = .ok .cls ∧ decodeWord false 0x00EE#16 = .ok .ret ∧
  decodeWord false 0x1234#16 = .ok (.jp 0x234#12) ∧ decodeWord false 0x2ABC#16 = .ok (.call 0xABC#12) ∧
  decodeWord false 0x3A2B#16 = .ok (.seVB 0xA#4 0x2B#8) ∧ decodeWord false 0x5120#16 = .ok (.seVV 0x1#4 0x2#4) ∧
  decodeWord false 0x812E#16 = .ok (.shlVV 0x1#4 0x2#4) ∧ decodeWord false 0xA20E#16 = .ok (.ldI 0x20E#12) ∧
  decodeWord false 0xD125#16 = .ok (.drw 0x1#4 0x2#4 0x5#4) ∧ decodeWord true 0xE59E#16 = .ok (.skp 0x5#4) ∧
  decodeWord false 0xE59E#16 = .error .familyE

/-- Decoding the encoding of an admitted instruction gives it back, from a word and from the front of any byte
sequence: every operand at every value (R70-R77). -/
def Obligations.DecodeOfEncodeIsIdentity : Prop :=
  ∀ (keySkips : Bool) (i : Instr) (rest : List Byte), i.wf keySkips = true →
    decodeWord keySkips (encode i) = .ok i ∧ decodeBytes keySkips (encodeBytes i ++ rest) = .ok (i, rest)

/-- A word that decodes is the encoding of what it decodes to, is admitted, and matches its opcode-table row, so
each word has one meaning (R75, R76). -/
def Obligations.DecodedWordIsTheEncoding : Prop :=
  ∀ (keySkips : Bool) (w : Word) (i : Instr), decodeWord keySkips w = .ok i →
    encode i = w ∧ i.wf keySkips = true ∧ w &&& i.rowMask = i.rowMatch

/-- The words that do not decode are exactly those R78 lists, and a step that fetches one raises
IllegalInstruction with pc at the word's address + 2 and nothing else changed (R206). -/
def Obligations.IllegalWordsAreThoseListedAndRaise : Prop :=
  (∀ (keySkips : Bool) (w : Word), (∃ e, decodeWord keySkips w = .error e) ↔ IllegalWord keySkips w) ∧
  (∀ s : State, s.fault = none → IllegalWord s.cfg.keySkips s.fetchWord →
    step s = .next { s with pc := s.pc + 2#16, fault := some .illegalInstruction })

/-! ### The step -/

/-- The two-byte read of R54: high byte at the lower address, each address modulo 4096; at 0xFFF the low byte is
that of address 0. -/
def Obligations.WordReadIsBigEndianModulo4096 : Prop :=
  ∀ (m : Memory) (a : Nat),
    Memory.read2 m a = ((Memory.lookup m (a % 4096)).setWidth 16 <<< 8) ||| (Memory.lookup m ((a + 1) % 4096)).setWidth 16 ∧
    (a % 4096 = 0xFFF → Memory.read2 m a = Memory.read m 0xFFF ++ Memory.read m 0x000)

/-- The fetch of R101: a step of a running core decodes the bytes at pc and pc + 1, high byte first, and runs the
instruction, or raises, in the state whose pc has advanced by 2, for legal and illegal words alike. -/
def Obligations.StepRunsTheDecodedInstruction : Prop :=
  ∀ s : State, s.fault = none →
    (∀ i, decodeWord s.cfg.keySkips (Memory.read s.mem s.pc.toNat ++ Memory.read s.mem (s.pc.toNat + 1)) = .ok i →
      step s = exec i { s with pc := s.pc + 2#16 }) ∧
    (∀ e, decodeWord s.cfg.keySkips (Memory.read s.mem s.pc.toNat ++ Memory.read s.mem (s.pc.toNat + 1)) = .error e →
      step s = raise .illegalInstruction { s with pc := s.pc + 2#16 })

/-- A raise sets the latch and nothing else; while it is set there is no step, and ticks go on, changing only the
timers (R207). -/
def Obligations.HaltedCoreHasNoStep : Prop :=
  (∀ (e : ErrorKind) (s : State), raise e s = .next { s with fault := some e }) ∧
  (∀ (e : ErrorKind) (s : State), s.fault = some e → step s = .fault (.halted e) ∧
    tick s = { s with dt := (tick s).dt, st := (tick s).st })

/-- From every state of the invariant with no error latched, every instruction answers a next state: it keeps the
invariant and raises nothing, or it is RET on an empty stack or CALL on a full one, which change the latch alone.
No target and no pixel access can fault (R113, R203, R210). -/
def Obligations.EveryInstructionCompletesOrRaisesAStackError : Prop :=
  ∀ (i : Instr) (s : State), s.wf = true → s.fault = none → ∃ t, exec i s = .next t ∧
    ((t.fault = none ∧ t.wf = true) ∨
     (i = .ret ∧ s.sp = 0 ∧ t = { s with fault := some .stackUnderflow }) ∨
     ((∃ nnn, i = .call nnn) ∧ s.sp = s.cfg.stackDepth ∧ t = { s with fault := some .stackOverflow }))

/-- Errors are precise (R211): a step that raises changes pc and the latch alone, pc − 2 is the address it fetched
from, and the kind is one of the three that R201, R202 and R206 give. -/
def Obligations.RaisedErrorsArePrecise : Prop :=
  ∀ (s t : State) (e : ErrorKind), s.wf = true → s.fault = none → step s = .next t → t.fault = some e →
    t = { s with pc := s.pc + 2#16, fault := some e } ∧ t.pc - 2#16 = s.pc ∧
    Memory.read2 t.mem (t.pc - 2#16).toNat = s.fetchWord ∧
    (e = .stackUnderflow ∨ e = .stackOverflow ∨ e = .illegalInstruction)

/-- An instruction placed where the next step fetches is the one that step runs, with KEY_SKIPS on if it is needed
(the model's own interface, log entries 4 and 9). -/
def Obligations.PlacedInstructionIsTheNextRun : Prop :=
  ∀ (i : Instr) (s : State), Memory.wf s.mem = true →
    step (s.withFetchWord 16 (encode i).toNat) = exec i (s.withFetchWord 16 (encode i).toNat).advance

/-! ### Control transfer -/

/-- RET (R103, R201): pops the top entry into pc, or raises StackUnderflow with pc, stack and sp unchanged. -/
def Obligations.RetPopsOrUnderflows : Prop :=
  ∀ s : State,
    (∀ n a, s.sp = n + 1 → s.stack[n]? = some a → exec .ret s = .next { s with pc := a, sp := n }) ∧
    (s.sp = 0 → exec .ret s = .next { s with fault := some .stackUnderflow })

/-- JP NNN (R104). -/
def Obligations.JumpSetsPc : Prop :=
  ∀ (nnn : Addr) (s : State), exec (.jp nnn) s = .next { s with pc := nnn.setWidth 16 }

/-- CALL NNN (R105, R202): pushes pc, which is the address after the CALL, and jumps; or raises StackOverflow with
pc, stack and sp unchanged. -/
def Obligations.CallPushesOrOverflows : Prop :=
  ∀ (nnn : Addr) (s : State), s.wf = true →
    (s.sp < s.cfg.stackDepth → ∃ t, exec (.call nnn) s = .next t ∧ t.pc = nnn.setWidth 16 ∧ t.sp = s.sp + 1 ∧
      t.stack[s.sp]? = some s.pc ∧ (∀ k, k ≠ s.sp → t.stack[k]? = s.stack[k]?) ∧ OnlyPcStack s t) ∧
    (s.sp = s.cfg.stackDepth → exec (.call nnn) s = .next { s with fault := some .stackOverflow })

/-- Call/Return round trip (95_test_vectors.md W6): CALL followed at once by RET resumes at the instruction after
the CALL with the old depth; only the stale entry above the top may differ. -/
def Obligations.CallThenRetReturns : Prop :=
  ∀ (nnn : Addr) (s : State), s.wf = true → s.sp < s.cfg.stackDepth →
    ∃ t u, exec (.call nnn) s = .next t ∧ exec .ret t.advance = .next u ∧
      u = { s with stack := u.stack } ∧ u.stack.length = s.stack.length ∧
      ∀ k, k ≠ s.sp → u.stack[k]? = s.stack[k]?

/-- A CALL to its own address, from an empty stack, fills the stack and then raises StackOverflow at the next step
(the corner case of R105). -/
def Obligations.SelfCallOverflowsWhenFull : Prop :=
  ∀ (nnn : Addr) (s : State), s.wf = true → s.fault = none → s.sp = 0 → s.pc = nnn.setWidth 16 →
    s.fetched = .ok (.call nnn) →
    ∃ t, core.run s.cfg.stackDepth s = .next t ∧ t.sp = s.cfg.stackDepth ∧ t.fault = none ∧
      step t = .next { t with pc := t.pc + 2#16, fault := some .stackOverflow }

/-- The compare skips (R106-R109) with the skip of R102: pc advances by 2 more exactly when the condition holds,
and nothing else changes. -/
def Obligations.CompareSkipsMovePc : Prop :=
  (∀ (x : RegIdx) (nn : Byte) (s : State),
    exec (.seVB x nn) s = .next { s with pc := if s.reg x = nn then s.pc + 2#16 else s.pc } ∧
    exec (.sneVB x nn) s = .next { s with pc := if s.reg x ≠ nn then s.pc + 2#16 else s.pc }) ∧
  (∀ (x y : RegIdx) (s : State),
    exec (.seVV x y) s = .next { s with pc := if s.reg x = s.reg y then s.pc + 2#16 else s.pc } ∧
    exec (.sneVV x y) s = .next { s with pc := if s.reg x ≠ s.reg y then s.pc + 2#16 else s.pc })

/-- A taken skip leaves pc at the skipping instruction's address + 4, one not taken at + 2 (R102): the step of each
of the six skips. -/
def Obligations.SkipPassesOneInstruction : Prop :=
  (∀ (x : RegIdx) (nn : Byte) (s : State), s.fault = none →
    (s.fetched = .ok (.seVB x nn) → ∃ t, step s = .next t ∧ t.pc = if s.reg x = nn then s.pc + 4#16 else s.pc + 2#16) ∧
    (s.fetched = .ok (.sneVB x nn) → ∃ t, step s = .next t ∧ t.pc = if s.reg x = nn then s.pc + 2#16 else s.pc + 4#16)) ∧
  (∀ (x y : RegIdx) (s : State), s.fault = none →
    (s.fetched = .ok (.seVV x y) →
      ∃ t, step s = .next t ∧ t.pc = if s.reg x = s.reg y then s.pc + 4#16 else s.pc + 2#16) ∧
    (s.fetched = .ok (.sneVV x y) →
      ∃ t, step s = .next t ∧ t.pc = if s.reg x = s.reg y then s.pc + 2#16 else s.pc + 4#16)) ∧
  (∀ (x : RegIdx) (s : State), s.fault = none →
    (s.fetched = .ok (.skp x) →
      ∃ t, step s = .next t ∧ t.pc = if keyEquals (pollKey s).1 (s.reg x) then s.pc + 4#16 else s.pc + 2#16) ∧
    (s.fetched = .ok (.sknp x) →
      ∃ t, step s = .next t ∧ t.pc = if keyEquals (pollKey s).1 (s.reg x) then s.pc + 2#16 else s.pc + 4#16))

/-- JP V0, NNN (R110): LEGACY adds V0 to NNN without reduction to 12 bits; SHIFTED adds NNN[7:0] to V[NNN[11:8]].
Only pc changes. -/
def Obligations.JumpWithOffsetTargets : Prop :=
  ∀ (nnn : Addr) (s : State),
    (s.cfg.shiftJumpMode = .legacy → ∃ t, exec (.jpV0 nnn) s = .next t ∧
      t.pc.toNat = nnn.toNat + (s.reg 0#4).toNat ∧ t.pc.toNat ≤ 0x10FE ∧ OnlyPc s t) ∧
    (s.cfg.shiftJumpMode = .shifted → ∃ t, exec (.jpV0 nnn) s = .next t ∧
      t.pc.toNat = (s.reg (BitVec.ofNat 4 (nnn.toNat / 256))).toNat + nnn.toNat % 256 ∧ t.pc.toNat ≤ 0x01FE ∧
      OnlyPc s t)

/-- SKP and SKNP (R111, R112): one poll; SKP skips iff a key is reported and equals V[X] as a byte, SKNP iff not;
the words decode only under KEY_SKIPS. Derived: the record of polls (keyIn, keyDraws) and that a lined-up answer is
the one given are the model's choice (log entry 7), and so is that exec does not test the latch, which the decoder
has tested (log entry 9). -/
def Obligations.KeySkipsPollOnce : Prop :=
  (∀ (x : RegIdx) (s : State),
    exec (.skp x) s = .next { s with
      keyIn := s.keyIn.tail, keyDraws := s.keyDraws + 1,
      pc := if (pollKey s).1.map (·.setWidth 8) = some (s.reg x) then s.pc + 2#16 else s.pc } ∧
    exec (.sknp x) s = .next { s with
      keyIn := s.keyIn.tail, keyDraws := s.keyDraws + 1,
      pc := if (pollKey s).1 = none ∨ (pollKey s).1.map (·.setWidth 8) ≠ some (s.reg x) then s.pc + 2#16 else s.pc }) ∧
  (∀ (k : Option Nibble) (rest : List (Option Nibble)) (s : State), s.keyIn = k :: rest → (pollKey s).1 = k) ∧
  (∀ x : RegIdx, decodeWord true (encode (.skp x)) = .ok (.skp x) ∧ decodeWord true (encode (.sknp x)) = .ok (.sknp x) ∧
    decodeWord false (encode (.skp x)) = .error .familyE ∧ decodeWord false (encode (.sknp x)) = .error .familyE)

/-! ### ALU -/

/-- LD Vx, NN and ADD Vx, NN (R130, R131): Vx alone changes, VF included unless it is Vx. -/
def Obligations.ImmediateLoadAndAdd : Prop :=
  ∀ (x : RegIdx) (nn : Byte) (s : State),
    (∃ t, exec (.ldVB x nn) s = .next t ∧ t.reg x = nn ∧ OnlyRegs [x] s t) ∧
    (∃ t, exec (.addVB x nn) s = .next t ∧ (t.reg x).toNat = ((s.reg x).toNat + nn.toNat) % 256 ∧ OnlyRegs [x] s t)

/-- LD, OR, AND and XOR of two registers (R132-R135): Vx alone changes. -/
def Obligations.RegisterCopyAndLogic : Prop :=
  ∀ (x y : RegIdx) (s : State),
    (∃ t, exec (.ldVV x y) s = .next t ∧ t.reg x = s.reg y ∧ OnlyRegs [x] s t) ∧
    (∃ t, exec (.orVV x y) s = .next t ∧ t.reg x = s.reg x ||| s.reg y ∧ OnlyRegs [x] s t) ∧
    (∃ t, exec (.andVV x y) s = .next t ∧ t.reg x = s.reg x &&& s.reg y ∧ OnlyRegs [x] s t) ∧
    (∃ t, exec (.xorVV x y) s = .next t ∧ t.reg x = s.reg x ^^^ s.reg y ∧ OnlyRegs [x] s t)

/-- R143: the loads, the logic operations, ADD Vx, NN and RND leave VF unless X = 0xF. -/
def Obligations.LogicAndLoadsLeaveTheFlag : Prop :=
  ∀ (x y : RegIdx) (nn : Byte) (s : State), x ≠ vf →
    (∃ t, exec (.ldVB x nn) s = .next t ∧ t.reg vf = s.reg vf) ∧
    (∃ t, exec (.addVB x nn) s = .next t ∧ t.reg vf = s.reg vf) ∧
    (∃ t, exec (.ldVV x y) s = .next t ∧ t.reg vf = s.reg vf) ∧
    (∃ t, exec (.orVV x y) s = .next t ∧ t.reg vf = s.reg vf) ∧
    (∃ t, exec (.andVV x y) s = .next t ∧ t.reg vf = s.reg vf) ∧
    (∃ t, exec (.xorVV x y) s = .next t ∧ t.reg vf = s.reg vf) ∧
    (∃ t, exec (.rnd x nn) s = .next t ∧ t.reg vf = s.reg vf)

/-- ADD Vx, Vy (R136): the sum modulo 256 and the carry, the flag written last; nothing else changes. -/
def Obligations.AddWritesSumAndCarry : Prop :=
  ∀ (x y : RegIdx) (s : State), ∃ t, exec (.addVV x y) s = .next t ∧
    t.reg vf = (if 256 ≤ (s.reg x).toNat + (s.reg y).toNat then 1#8 else 0#8) ∧
    (x ≠ vf → (t.reg x).toNat = ((s.reg x).toNat + (s.reg y).toNat) % 256) ∧ OnlyRegs [x, vf] s t

/-- SUB and SUBN (R137, R138): the difference modulo 256 and the inverted borrow, the flag written last. -/
def Obligations.SubtractsWriteDifferenceAndNoBorrow : Prop :=
  ∀ (x y : RegIdx) (s : State),
    (∃ t, exec (.subVV x y) s = .next t ∧
      t.reg vf = (if (s.reg x).toNat < (s.reg y).toNat then 0#8 else 1#8) ∧
      (x ≠ vf → ((t.reg x).toNat : Int) = ((s.reg x).toNat - (s.reg y).toNat : Int) % 256) ∧ OnlyRegs [x, vf] s t) ∧
    (∃ t, exec (.subnVV x y) s = .next t ∧
      t.reg vf = (if (s.reg y).toNat < (s.reg x).toNat then 0#8 else 1#8) ∧
      (x ≠ vf → ((t.reg x).toNat : Int) = ((s.reg y).toNat - (s.reg x).toNat : Int) % 256) ∧ OnlyRegs [x, vf] s t)

/-- SHR and SHL (R139, R140): V[Y] under LEGACY and V[X] under SHIFTED is shifted by one; the bit shifted out goes
to VF last; nothing else changes. -/
def Obligations.ShiftsWriteResultAndBitOut : Prop :=
  ∀ (x y : RegIdx) (s : State) (v : Byte),
    v = (if s.cfg.shiftJumpMode = .legacy then s.reg y else s.reg x) →
    (∃ t, exec (.shrVV x y) s = .next t ∧ (t.reg vf).toNat = v.toNat % 2 ∧
      (x ≠ vf → (t.reg x).toNat = v.toNat / 2) ∧ OnlyRegs [x, vf] s t) ∧
    (∃ t, exec (.shlVV x y) s = .next t ∧ (t.reg vf).toNat = v.toNat / 128 ∧
      (x ≠ vf → (t.reg x).toNat = v.toNat * 2 % 256) ∧ OnlyRegs [x, vf] s t)

/-- R144: after each of the five flag-writing ALU instructions, VF is 0 or 1. -/
def Obligations.AluFlagsAreZeroOrOne : Prop :=
  ∀ (i : Instr) (x y : RegIdx) (s : State),
    i ∈ [.addVV x y, .subVV x y, .subnVV x y, .shrVV x y, .shlVV x y] →
    ∃ t, exec i s = .next t ∧ (t.reg vf = 0#8 ∨ t.reg vf = 1#8)

/-- R141: for each of the five, result and flag are computed from the operands as they were before (VF's old value
where X or Y is 0xF); the result is written, and then the flag, so with X = 0xF the flag survives. -/
def Obligations.ResultThenFlagFromOldOperands : Prop :=
  ∀ (x y : RegIdx) (s : State) (a b v : Byte), a = s.reg x → b = s.reg y → v = shiftSource x y s →
    (∃ t, exec (.addVV x y) s = .next t ∧ t.reg vf = carryFlag a b ∧ (x ≠ vf → t.reg x = sumByte a b) ∧
      OnlyRegs [x, vf] s t) ∧
    (∃ t, exec (.subVV x y) s = .next t ∧ t.reg vf = noBorrowFlag a b ∧ (x ≠ vf → t.reg x = diffByte a b) ∧
      OnlyRegs [x, vf] s t) ∧
    (∃ t, exec (.subnVV x y) s = .next t ∧ t.reg vf = noBorrowFlag b a ∧ (x ≠ vf → t.reg x = diffByte b a) ∧
      OnlyRegs [x, vf] s t) ∧
    (∃ t, exec (.shrVV x y) s = .next t ∧ t.reg vf = shrFlag v ∧ (x ≠ vf → t.reg x = shrByte v) ∧
      OnlyRegs [x, vf] s t) ∧
    (∃ t, exec (.shlVV x y) s = .next t ∧ t.reg vf = shlFlag v ∧ (x ≠ vf → t.reg x = shlByte v) ∧
      OnlyRegs [x, vf] s t)

/-- RND (R145): one draw, masked into Vx; bits outside the mask are 0; only Vx and the draw record change, and a
lined-up byte is the one drawn. Derived: the record of draws (randIn, randDraws) and that a lined-up byte is the one
drawn are the model's choice (log entry 6). -/
def Obligations.RandomIsMaskedDraw : Prop :=
  ∀ (x : RegIdx) (nn : Byte) (s : State),
    (∃ t, exec (.rnd x nn) s = .next t ∧ t.reg x = (drawRand s).1 &&& nn ∧ t.reg x &&& ~~~nn = 0#8 ∧
      (∀ r, r ≠ x → t.reg r = s.reg r) ∧ SameMemory s t ∧
      t = { s with v := t.v, randIn := s.randIn.tail, randDraws := s.randDraws + 1 }) ∧
    (∀ r rest, s.randIn = r :: rest → (drawRand s).1 = r)

/-! ### Index register and display -/

/-- LD I, NNN (R170). -/
def Obligations.LoadIndexSetsI : Prop :=
  ∀ (nnn : Addr) (s : State), exec (.ldI nnn) s = .next { s with i := nnn.setWidth 16 }

/-- CLS (R171): every pixel off, one redraw, nothing else changed. -/
def Obligations.ClearTurnsEveryPixelOff : Prop :=
  ∀ s : State, ∃ t, exec .cls s = .next t ∧ (∀ row col, t.pixel row col = false) ∧ fbShape t.cfg t.fb = true ∧
    t.redraws = s.redraws + 1 ∧ (∀ r, t.reg r = s.reg r) ∧ SameMemory s t ∧
    t = { s with fb := t.fb, redraws := t.redraws }

/-- CLS is R171's loop of PixelWrite over every row and column, followed by one Redraw (log entry 17). -/
def Obligations.ClearIsThePixelWriteLoop : Prop :=
  ∀ s : State, s.wf = true → ∃ t, clearPixels s = .ok t ∧ exec .cls s = .next { t with redraws := t.redraws + 1 }

/-- DRW's coordinates (R172) in a legal configuration: the column always wraps, the row wraps or is skipped, and
every coordinate drawn is inside the grid. -/
def Obligations.DrawCoordinatesStayInGrid : Prop :=
  ∀ c : Config, c.wf = true → ∀ x0 y0 r b : Nat,
    drawColOf c x0 b = (x0 + b) % c.gridW ∧ drawColOf c x0 b < c.gridW ∧
    (c.vwrapMode = .wrap → drawRowOf c y0 r = some ((y0 + r) % c.gridH)) ∧
    (c.vwrapMode = .clip → y0 + r < c.gridH → drawRowOf c y0 r = some (y0 + r)) ∧
    (c.vwrapMode = .clip → c.gridH ≤ y0 + r → drawRowOf c y0 r = none) ∧
    (∀ row, drawRowOf c y0 r = some row → row < c.gridH)

/-- DRW completes and requests exactly one redraw, whatever N is and whether or not rows are skipped (R175); only
VF, pixels and the redraw count change. -/
def Obligations.DrawRequestsOneRedraw : Prop :=
  ∀ (x y : RegIdx) (n : Nibble) (s : State), s.wf = true → ∃ t, exec (.drw x y n) s = .next t ∧
    t.redraws = s.redraws + 1 ∧ OnlyDrawn s t ∧ fbShape t.cfg t.fb = true

/-- DRW with N = 0 (corner case of R173): no pixel changes, VF is cleared or kept by DRW_VF_MODE, one redraw. -/
def Obligations.DrawOfNoRows : Prop :=
  ∀ (x y : RegIdx) (s : State),
    (s.cfg.drwVfMode = .clearThenOr →
      exec (.drw x y 0#4) s = .next { s.setReg vf 0#8 with redraws := s.redraws + 1 }) ∧
    (s.cfg.drwVfMode = .orIntoOld → exec (.drw x y 0#4) s = .next { s with redraws := s.redraws + 1 })

/-- DRW's pixels (R172, R173, R177): every pixel is XORed with each sprite bit that lands on it, however the sprite
wraps or overlaps itself; a pixel no bit lands on is unchanged. -/
def Obligations.DrawXorsEverySpriteBit : Prop :=
  ∀ (x y : RegIdx) (n : Nibble) (s : State), s.wf = true → ∃ t, exec (.drw x y n) s = .next t ∧
    ∀ row col, row < s.cfg.gridH → col < s.cfg.gridW →
      t.pixel row col =
        (s.pixel row col ^^
          parity (drawBitsAt s (s.reg x).toNat (s.reg y).toNat s.i.toNat n.toNat row col))

/-- Where a sprite does not overlap itself, each drawn bit flips its own pixel, most significant bit leftmost
(R172, R173). -/
def Obligations.DrawFlipsEachPixelOnce : Prop :=
  ∀ (x y : RegIdx) (n : Nibble) (s : State), s.wf = true → NoSelfOverlap s.cfg n.toNat →
    ∃ t, exec (.drw x y n) s = .next t ∧
      ∀ r b row, r < n.toNat → b < 8 → drawRowOf s.cfg (s.reg y).toNat r = some row →
        t.pixel row (((s.reg x).toNat + b) % s.cfg.gridW) =
          (s.pixel row (((s.reg x).toNat + b) % s.cfg.gridW) ^^
            (Memory.read s.mem (s.i.toNat + r)).getLsbD (7 - b))

/-- The collision flag (R174) of any sprite, one that overlaps itself included (R177: a later visit reads what the
earlier one wrote): CLEAR_THEN_OR leaves 1 or 0, OR_INTO_OLD leaves old VF with bit 0 set by a collision. Where the
sprite does not overlap itself, a collision is a set bit on a pixel lit before the draw. -/
def Obligations.DrawFlagIsTheCollision : Prop :=
  ∀ (x y : RegIdx) (n : Nibble) (s : State), s.wf = true →
    ∃ t, exec (.drw x y n) s = .next t ∧
      (CollidesInOrder s (s.reg x).toNat (s.reg y).toNat s.i.toNat n.toNat →
        t.reg vf = (if s.cfg.drwVfMode = .clearThenOr then 1#8 else s.reg vf ||| 1#8)) ∧
      (¬ CollidesInOrder s (s.reg x).toNat (s.reg y).toNat s.i.toNat n.toNat →
        t.reg vf = (if s.cfg.drwVfMode = .clearThenOr then 0#8 else s.reg vf)) ∧
      (NoSelfOverlap s.cfg n.toNat →
        (CollidesInOrder s (s.reg x).toNat (s.reg y).toNat s.i.toNat n.toNat ↔
          Collides s (s.reg x).toNat (s.reg y).toNat s.i.toNat n.toNat))

/-- Double-draw identity (R176, its first claim): a second DRW of the same sprite bytes at the same coordinates in
the same configuration, with nothing between that writes the framebuffer, restores every pixel. -/
def Obligations.DoubleDrawRestoresThePixels : Prop :=
  ∀ (x y x' y' : RegIdx) (n : Nibble) (s t s' u : State), s.wf = true → exec (.drw x y n) s = .next t →
    s'.fb = t.fb → s'.cfg = s.cfg → s'.mem = s.mem → s'.i = s.i → s'.reg x' = s.reg x → s'.reg y' = s.reg y →
    exec (.drw x' y' n) s' = .next u → u.fb = s.fb

/-- The flag of the second of two equal draws, corrected (log entry 13): with no self-overlap and CLEAR_THEN_OR it
is 1 iff some drawn sprite bit is set on a pixel that was dark before the first draw. -/
def Obligations.SecondDrawFlagCountsDarkPixels : Prop :=
  ∀ (x y : RegIdx) (n : Nibble) (s t u : State), s.wf = true → NoSelfOverlap s.cfg n.toNat →
    s.cfg.drwVfMode = .clearThenOr → x ≠ vf → y ≠ vf → exec (.drw x y n) s = .next t →
    exec (.drw x y n) t = .next u →
    (u.reg vf = 1#8 ↔
      ∃ r < n.toNat, ∃ row, drawRowOf s.cfg (s.reg y).toNat r = some row ∧ ∃ b < 8,
        spriteBit (Memory.read s.mem (s.i.toNat + r)) b = true ∧
        s.pixel row (drawColOf s.cfg (s.reg x).toNat b) = false)

/-- R176's last sentence as it stands: the second draw sets VF = 1 iff the sprite has a set bit in a drawn row.
Expected to FAIL: a set bit on a pixel lit before the first draw collides in the first and not in the second, by
R173 itself (log entry 13). -/
def Obligations.SecondDrawFlagAsR176Says : Prop :=
  ∀ (x y : RegIdx) (n : Nibble) (s t u : State), s.wf = true → s.cfg.drwVfMode = .clearThenOr → x ≠ vf → y ≠ vf →
    exec (.drw x y n) s = .next t → exec (.drw x y n) t = .next u →
    (u.reg vf = 1#8 ↔
      ∃ r < n.toNat, ∃ row, drawRowOf s.cfg (s.reg y).toNat r = some row ∧ ∃ b < 8,
        spriteBit (Memory.read s.mem (s.i.toNat + r)) b = true)

/-- PixelRead and PixelWrite (R216, R217): inside the grid they read and write one bit, outside they raise
OutOfBounds. -/
def Obligations.PixelCallsCheckTheGrid : Prop :=
  ∀ (row col : Nat) (b : Bool) (s : State), s.wf = true →
    (row < s.cfg.gridH ∧ col < s.cfg.gridW → pixelRead row col s = .ok (s.pixel row col) ∧
      ∃ t, pixelWrite row col b s = .ok t ∧ t = { s with fb := t.fb } ∧
        ∀ row' col', t.pixel row' col' = if row' = row ∧ col' = col then b else s.pixel row' col') ∧
    (¬ (row < s.cfg.gridH ∧ col < s.cfg.gridW) →
      pixelRead row col s = .error .outOfBounds ∧ pixelWrite row col b s = .error .outOfBounds)

/-! ### Whole-machine rules -/

/-- The register frame of every instruction (R21): only its named destination changes, and VF besides for the six
that write it as a side effect. -/
def Obligations.RegistersChangeOnlyAsNamed : Prop :=
  ∀ (i : Instr) (s t : State) (r : RegIdx), exec i s = .next t → destReg i ≠ some r →
    (r = vf → writesFlag i = false) → t.reg r = s.reg r

/-- Who writes what (R39): no instruction writes memory, the timers or the configuration; I is written by LD I
alone, the stack and its depth by RET and CALL (the array by CALL alone), the pixels and the redraw count by CLS
and DRW, the draw records by the instructions that draw, and pc by the control transfers. -/
def Obligations.StateIsWrittenOnlyByItsWriters : Prop :=
  ∀ (i : Instr) (s t : State), exec i s = .next t →
    t.mem = s.mem ∧ SameMemory s t ∧ t.dt = s.dt ∧ t.st = s.st ∧ t.cfg = s.cfg ∧
    ((∀ nnn, i ≠ .ldI nnn) → t.i = s.i) ∧
    (usesStack i = false → t.stack = s.stack ∧ t.sp = s.sp) ∧
    ((∀ nnn, i ≠ .call nnn) → t.stack = s.stack) ∧
    (usesDisplay i = false → t.fb = s.fb ∧ t.redraws = s.redraws) ∧
    (takesDraw i = false → t.randIn = s.randIn ∧ t.randDraws = s.randDraws ∧ t.keyIn = s.keyIn ∧
      t.keyDraws = s.keyDraws) ∧
    (transfersControl i = false → t.pc = s.pc)

/-- Memory and the configuration are constant after construction (R56, R62, R7): over every schedule of steps and
ticks, every byte, every word a fetch can read, and every latch is as it was. -/
def Obligations.MemoryAndConfigurationAreConstant : Prop :=
  ∀ (es : List Event) (s t : State), runEvents es s = .next t →
    t.mem = s.mem ∧ SameMemory s t ∧ (∀ a, Memory.read2 t.mem a = Memory.read2 s.mem a) ∧ t.cfg = s.cfg

/-- R32: outside the shifts, the jump with offset and DRW, an instruction is the same under every value of the two
compatibility modes; the shifts and the jump ignore VWRAP_MODE, DRW ignores SHIFT_JUMP_MODE. -/
def Obligations.CompatibilityModesAreContained : Prop :=
  ∀ (sj : ShiftJumpMode) (vw : VwrapMode) (i : Instr) (s : State),
    (readsShiftMode i = false ∨ sj = s.cfg.shiftJumpMode) → (readsWrapMode i = false ∨ vw = s.cfg.vwrapMode) →
    exec i (s.withModes sj vw) = mapNext (State.withModes sj vw) (exec i s)

/-- Only RND, SKP and SKNP take a draw input: any other instruction does the same whatever the draws are and leaves
them (R15, R145, R219). -/
def Obligations.OtherInstructionsIgnoreTheDraws : Prop :=
  ∀ (i : Instr) (s : State) (ri : List Byte) (rd : Nat) (ki : List (Option Nibble)) (kd : Nat),
    takesDraw i = false →
    exec i (s.withDraws ri rd ki kd) = mapNext (State.withDraws ri rd ki kd) (exec i s)

/-- The invariant is kept by every step and every tick (R27, R33, R56, R7). -/
def Obligations.EveryStepKeepsTheInvariant : Prop :=
  ∀ s : State, s.wf = true → (∀ t, step s = .next t → t.wf = true) ∧ (tick s).wf = true

/-- The invariant holds right after reset. -/
def Obligations.ResetMeetsTheInvariant : Prop :=
  State.reset.wf = true ∧ State.reset.indexBounded = true

/-- `I` never exceeds 0x0FFF (R26): every step keeps it. -/
def Obligations.IndexStaysInTwelveBits : Prop :=
  ∀ s t : State, s.indexBounded = true → step s = .next t → t.indexBounded = true

/-- An idle loop is a fixed point of the step (R261). -/
def Obligations.IdleLoopChangesNothing : Prop :=
  ∀ s : State, s.fault = none → s.idle → step s = .next s

/-! ### Timers and schedules -/

/-- Tick (R213): each timer drops by one and stops at 0; nothing else is read or written. -/
def Obligations.TickDecrementsEachTimer : Prop :=
  ∀ s : State, (tick s).dt.toNat = s.dt.toNat - 1 ∧ (tick s).st.toNat = s.st.toNat - 1 ∧
    tick s = { s with dt := (tick s).dt, st := (tick s).st }

/-- After n ticks each timer has dropped by n and stopped at 0 (95_test_vectors.md W8), and the tone sounds exactly
while ST is not 0 (R30). -/
def Obligations.TimersCountDownToZero : Prop :=
  ∀ (n : Nat) (s : State), ∃ t, runEvents (List.replicate n .tick) s = .next t ∧
    t.dt.toNat = s.dt.toNat - n ∧ t.st.toNat = s.st.toNat - n ∧ (t.tone = true ↔ n < s.st.toNat)

/-- A step neither reads nor writes the timers (R29, R259): with other timer values it does the same and leaves
them. -/
def Obligations.StepsIgnoreTheTimers : Prop :=
  ∀ (d e : Byte) (s : State), step (s.withTimers d e) = mapNext (State.withTimers d e) (step s)

/-- Where ticks fall does not matter (R214, R259): a schedule ends in the state it gives without its ticks, with each
timer lowered by the number of ticks. That ticks after the termination signal count too is the model's choice (log
entry 21). -/
def Obligations.TickPlacementIsIrrelevant : Prop :=
  ∀ (es : List Event) (s t : State), runEvents es s = .next t →
    ∃ u, runEvents (es.filter (fun e => decide (e ≠ Event.tick))) s = .next u ∧
      t = u.withTimers t.dt t.st ∧ t.dt.toNat = s.dt.toNat - es.count Event.tick ∧
      t.st.toNat = s.st.toNat - es.count Event.tick

/-! ### Construction and the host's ports -/

/-- Construction errors (R204, R208, R251): ProgramTooLarge above 3584 bytes is checked first, FontTooLarge above
432 second, and otherwise a machine is made. -/
def Obligations.ConstructionChecksSizesInOrder : Prop :=
  ∀ p : ConstructInputs,
    (3584 < p.program.length → construct p = .error .programTooLarge) ∧
    (p.program.length ≤ 3584 → 432 < p.font.length → construct p = .error .fontTooLarge) ∧
    (p.program.length ≤ 3584 → p.font.length ≤ 432 → ∃ s, construct p = .ok s)

/-- What construction leaves (R250, R57): font bytes at 0x050, program bytes at 0x200, 0 elsewhere; registers, I and
stack 0; pc at 0x0200; the timers, framebuffer and configuration as given; no fault. -/
def Obligations.ConstructionLeavesTheImage : Prop :=
  ∀ (p : ConstructInputs) (s : State), construct p = .ok s →
    (∀ k b, p.font[k]? = some b → Memory.read s.mem (0x050 + k) = b) ∧
    (∀ k b, p.program[k]? = some b → Memory.read s.mem (0x200 + k) = b) ∧
    (∀ a, a < 4096 → (a < 0x050 ∨ (0x050 + p.font.length ≤ a ∧ a < 0x200) ∨ 0x200 + p.program.length ≤ a) →
      Memory.read s.mem a = 0#8) ∧
    (∀ r, s.reg r = 0#8) ∧ s.i = 0#16 ∧ s.stack = List.replicate p.cfg.stackDepth 0#16 ∧ s.sp = 0 ∧
    s.pc = 0x0200#16 ∧ s.dt = p.dtInit ∧ s.st = p.stInit ∧ s.fault = none ∧ s.fb = p.fbInit ∧ s.redraws = 0 ∧
    s.cfg = p.cfg

/-- A machine constructed from legal inputs meets the invariant and the bound on I (R27, R33, R26). -/
def Obligations.ConstructedMachineMeetsTheInvariant : Prop :=
  ∀ (p : ConstructInputs) (s : State), p.wf = true → construct p = .ok s → s.wf = true ∧ s.indexBounded = true

/-- `State.reset` is construction from the model's base inputs. The base inputs are the model's choice
(log entries 1-4), not the spec's. -/
def Obligations.ResetIsConstruction : Prop := construct ConstructInputs.base = .ok State.reset

/-- Push and Pop (R28): a push onto a stack that is not full is undone by a pop, which returns the value and leaves
it in the array; a full push and an empty pop raise, and change nothing. -/
def Obligations.PopReturnsWhatPushPut : Prop :=
  ∀ (a : Word) (s : State), s.wf = true →
    (s.sp ≠ s.cfg.stackDepth → ∃ t, push a s = .ok t ∧ t.stack[s.sp]? = some a ∧ t.sp = s.sp + 1 ∧
      pop t = .ok (a, { t with sp := s.sp })) ∧
    (s.sp = s.cfg.stackDepth → push a s = .error .stackOverflow) ∧
    (s.sp = 0 → pop s = .error .stackUnderflow)

/-- The step answers (R200, R220): 0 for Ok and the spec's code for each error kind. That a state no step has reached
reads 0 too is the model's choice (log entry 22). -/
def Obligations.StepAnswersCarryTheCodes : Prop :=
  ∀ s : State,
    (s.fault = none → s.stepAnswer = 0) ∧ (s.fault = some .stackUnderflow → s.stepAnswer = 1) ∧
    (s.fault = some .stackOverflow → s.stepAnswer = 2) ∧ (s.fault = some .outOfBounds → s.stepAnswer = 3) ∧
    (s.fault = some .programTooLarge → s.stepAnswer = 4) ∧ (s.fault = some .outOfRange → s.stepAnswer = 5) ∧
    (s.fault = some .illegalInstruction → s.stepAnswer = 6) ∧ (s.fault = some .fontTooLarge → s.stepAnswer = 7)
end

