-- ==== Sys2Proof/Laws/Memory.lean ====
section
/-!
SUPPORT. The laws of memory: a read after a write, and that every memory operation keeps the canonical form.
-/

namespace Sys2Proof.Machine

/-! ### Reading after writing -/

theorem Memory.wfFrom_mono {lo lo' : Nat} (h : lo' ≤ lo) : ∀ {m : Memory}, Memory.wfFrom lo m = true →
    Memory.wfFrom lo' m = true
  | [], _ => rfl
  | (a, b) :: rest, hm => by
    simp only [Memory.wfFrom, Bool.and_eq_true, decide_eq_true_eq] at hm ⊢
    exact ⟨⟨⟨by omega, hm.1.1.2⟩, hm.1.2⟩, hm.2⟩

/-- Nothing is listed below the bound of a canonical list. -/
theorem Memory.lookup_below : ∀ {m : Memory} {lo a : Nat}, Memory.wfFrom lo m = true → a < lo →
    Memory.lookup m a = 0#8
  | [], _, _, _, _ => rfl
  | (k, c) :: rest, lo, a, hm, ha => by
    simp only [Memory.wfFrom, Bool.and_eq_true, decide_eq_true_eq] at hm
    rw [Memory.lookup, if_neg (by omega)]
    exact Memory.lookup_below hm.2 (by omega)

theorem Memory.lookup_put {m : Memory} : ∀ {lo a a' : Nat} {b : Byte}, Memory.wfFrom lo m = true →
    Memory.lookup (Memory.put m a b) a' = if a' = a then b else Memory.lookup m a' := by
  induction m with
  | nil =>
    intro lo a a' b _
    by_cases hb : b = 0#8 <;> by_cases ha : a' = a <;> simp [Memory.put, Memory.lookup, hb, ha]
    exact fun h => absurd h.symm ha
  | cons e rest ih =>
    obtain ⟨k, c⟩ := e
    intro lo a a' b hm
    simp only [Memory.wfFrom, Bool.and_eq_true, decide_eq_true_eq] at hm
    have hlow : ∀ {x}, x < k + 1 → Memory.lookup rest x = 0#8 := fun h => Memory.lookup_below hm.2 h
    by_cases h1 : a < k
    · have hk : ¬ k = a := by omega
      by_cases hb : b = 0#8 <;> by_cases ha : a' = a
      · simp [Memory.put, h1, hb, ha, Memory.lookup, hk, hlow (show a < k + 1 by omega)]
      · simp [Memory.put, h1, hb, ha]
      · simp [Memory.put, h1, hb, ha, Memory.lookup]
      · simp [Memory.put, h1, hb, ha, Memory.lookup, Ne.symm ha]
    · by_cases h2 : a = k
      · subst h2
        by_cases hb : b = 0#8 <;> by_cases ha : a' = a
        · simp [Memory.put, hb, ha, hlow]
        · simp [Memory.put, hb, ha, Memory.lookup, Ne.symm ha]
        · simp [Memory.put, hb, ha, Memory.lookup]
        · simp [Memory.put, hb, ha, Memory.lookup, Ne.symm ha]
      · simp only [Memory.put, if_neg h1, if_neg h2, Memory.lookup, ih hm.2]
        by_cases ha : a' = a
        · subst ha; simp [Ne.symm h2]
        · simp [ha]

/-- A read after a write (R52): the byte written at that address modulo 4096, any other byte as before. -/
theorem Memory.read_write {m : Memory} (h : Memory.wf m = true) (a a' : Nat) (b : Byte) :
    Memory.read (Memory.write m a b) a' = if a' % memSize = a % memSize then b else Memory.read m a' :=
  Memory.lookup_put h

/-- Reading is by the address modulo 4096 (R52). -/
theorem Memory.read_mod (m : Memory) (a : Nat) : Memory.read m (a % memSize) = Memory.read m a := by
  simp [Memory.read]

/-! ### The canonical form is kept -/

theorem Memory.put_wfFrom {m : Memory} : ∀ {lo a : Nat} {b : Byte}, Memory.wfFrom lo m = true → lo ≤ a →
    a < memSize → Memory.wfFrom lo (Memory.put m a b) = true := by
  induction m with
  | nil => intro lo a b _ hlo ha; by_cases hb : b = 0#8 <;> simp [Memory.put, Memory.wfFrom, hb, hlo, ha]
  | cons e rest ih =>
    obtain ⟨k, c⟩ := e
    intro lo a b hm hlo ha
    have hm' := hm
    simp only [Memory.wfFrom, Bool.and_eq_true, decide_eq_true_eq] at hm
    by_cases h1 : a < k
    · by_cases hb : b = 0#8
      · simpa [Memory.put, h1, hb] using hm'
      · simp [Memory.put, h1, hb, Memory.wfFrom, hlo, ha, hm.1.2, hm.2, hm.1.1.2]
    · by_cases h2 : a = k
      · subst h2
        by_cases hb : b = 0#8
        · simpa [Memory.put, hb] using Memory.wfFrom_mono (by omega) hm.2
        · simp [Memory.put, hb, Memory.wfFrom, hlo, ha, hm.2]
      · simp only [Memory.put, if_neg h1, if_neg h2, Memory.wfFrom, Bool.and_eq_true, decide_eq_true_eq]
        exact ⟨hm.1, ih hm.2 (by omega) ha⟩

theorem Memory.write_wf {m : Memory} (h : Memory.wf m = true) (a : Nat) (b : Byte) :
    Memory.wf (Memory.write m a b) = true :=
  Memory.put_wfFrom h (Nat.zero_le _) (Nat.mod_lt _ (by decide))

theorem Memory.writeBytes_wf (bs : List Byte) : ∀ {m : Memory} (a : Nat), Memory.wf m = true →
    Memory.wf (Memory.writeBytes m a bs) = true := by
  induction bs with
  | nil => intro m a h; exact h
  | cons b bs ih => intro m a h; exact ih _ (Memory.write_wf h _ _)

theorem Memory.writeWord_wf {m : Memory} (h : Memory.wf m = true) (a : Nat) (w : Word) :
    Memory.wf (Memory.writeWord m a w) = true :=
  Memory.write_wf (Memory.write_wf h _ _) _ _

theorem constructMem_wf (font program : List Byte) : Memory.wf (constructMem font program) = true :=
  Memory.writeBytes_wf _ _ (Memory.writeBytes_wf _ _ rfl)

theorem reset_mem_wf : Memory.wf State.reset.mem = true := rfl

/-- Reading after writing a byte sequence that fits below the top (R250): a byte of the sequence, or as before. -/
theorem Memory.read_writeBytes (bs : List Byte) : ∀ {m : Memory} (a x : Nat), Memory.wf m = true →
    a + bs.length ≤ memSize → x < memSize →
    Memory.read (Memory.writeBytes m a bs) x =
      if a ≤ x ∧ x < a + bs.length then bs.getD (x - a) 0#8 else Memory.read m x := by
  induction bs with
  | nil => intro m a x _ _ _; exact (if_neg (by simp)).symm
  | cons b bs ih =>
    intro m a x hm h hx
    simp only [List.length_cons] at h ⊢
    rw [Memory.writeBytes, ih (a + 1) x (Memory.write_wf hm a b) (by omega) hx, Memory.read_write hm,
      Nat.mod_eq_of_lt hx, Nat.mod_eq_of_lt (show a < memSize by omega)]
    by_cases h1 : a + 1 ≤ x ∧ x < a + 1 + bs.length
    · rw [if_pos h1, if_pos (by omega), show x - a = (x - (a + 1)) + 1 by omega]
      rfl
    · rw [if_neg h1]
      by_cases h2 : x = a
      · subst h2
        rw [if_pos rfl, if_pos (by omega), Nat.sub_self]
        rfl
      · rw [if_neg h2, if_neg (by omega)]

/-- Equal reads mean equal memories: the canonical form is canonical. -/
theorem Memory.lookup_ext : ∀ {m m' : Memory} {lo : Nat}, Memory.wfFrom lo m = true →
    Memory.wfFrom lo m' = true → (∀ a, Memory.lookup m a = Memory.lookup m' a) → m = m'
  | [], [], _, _, _, _ => rfl
  | [], (k, c) :: rest, lo, _, hm', h => by
    simp only [Memory.wfFrom, Bool.and_eq_true, decide_eq_true_eq] at hm'
    exact absurd (by simpa [Memory.lookup] using (h k).symm) hm'.1.2
  | (k, c) :: rest, [], lo, hm, _, h => by
    simp only [Memory.wfFrom, Bool.and_eq_true, decide_eq_true_eq] at hm
    exact absurd (by simpa [Memory.lookup] using h k) hm.1.2
  | (k, c) :: rest, (k', c') :: rest', lo, hm, hm', h => by
    have hm0 := hm
    have hm0' := hm'
    simp only [Memory.wfFrom, Bool.and_eq_true, decide_eq_true_eq] at hm hm'
    have hk : k = k' := by
      rcases Nat.lt_trichotomy k k' with hlt | heq | hlt
      · have h1 := h k
        rw [Memory.lookup, if_pos rfl, Memory.lookup, if_neg (by omega),
          Memory.lookup_below hm'.2 (by omega)] at h1
        exact absurd h1 hm.1.2
      · exact heq
      · have h1 := h k'
        rw [Memory.lookup, if_neg (by omega), Memory.lookup_below hm.2 (by omega), Memory.lookup,
          if_pos rfl] at h1
        exact absurd h1.symm hm'.1.2
    subst hk
    have hc : c = c' := by simpa [Memory.lookup] using h k
    have hrest : rest = rest' := by
      refine Memory.lookup_ext hm.2 hm'.2 fun a => ?_
      by_cases ha : k = a
      · subst ha; rw [Memory.lookup_below hm.2 (by omega), Memory.lookup_below hm'.2 (by omega)]
      · simpa [Memory.lookup, ha] using h a
    rw [hc, hrest]

end Sys2Proof.Machine
end

