-- ==== Sys2Proof/Laws/State.lean ====
section
/-!
SUPPORT. What each update of the state does to each field, one lemma per field per update, and what the register
file reads after a write. No later proof unfolds a record update.
-/

namespace Sys2Proof.Machine

variable (s : State)

/-! ### setReg -/

@[simp] theorem setReg_v (x : RegIdx) (b : Byte) : (s.setReg x b).v = s.v.set x.toNat b x.isLt := rfl
@[simp] theorem setReg_pc (x : RegIdx) (b : Byte) : (s.setReg x b).pc = s.pc := rfl
@[simp] theorem setReg_i (x : RegIdx) (b : Byte) : (s.setReg x b).i = s.i := rfl
@[simp] theorem setReg_stack (x : RegIdx) (b : Byte) : (s.setReg x b).stack = s.stack := rfl
@[simp] theorem setReg_sp (x : RegIdx) (b : Byte) : (s.setReg x b).sp = s.sp := rfl
@[simp] theorem setReg_dt (x : RegIdx) (b : Byte) : (s.setReg x b).dt = s.dt := rfl
@[simp] theorem setReg_st (x : RegIdx) (b : Byte) : (s.setReg x b).st = s.st := rfl
@[simp] theorem setReg_mem (x : RegIdx) (b : Byte) : (s.setReg x b).mem = s.mem := rfl
@[simp] theorem setReg_fault (x : RegIdx) (b : Byte) : (s.setReg x b).fault = s.fault := rfl
@[simp] theorem setReg_fb (x : RegIdx) (b : Byte) : (s.setReg x b).fb = s.fb := rfl
@[simp] theorem setReg_redraws (x : RegIdx) (b : Byte) : (s.setReg x b).redraws = s.redraws := rfl
@[simp] theorem setReg_cfg (x : RegIdx) (b : Byte) : (s.setReg x b).cfg = s.cfg := rfl
@[simp] theorem setReg_randIn (x : RegIdx) (b : Byte) : (s.setReg x b).randIn = s.randIn := rfl
@[simp] theorem setReg_randDraws (x : RegIdx) (b : Byte) : (s.setReg x b).randDraws = s.randDraws := rfl
@[simp] theorem setReg_keyIn (x : RegIdx) (b : Byte) : (s.setReg x b).keyIn = s.keyIn := rfl
@[simp] theorem setReg_keyDraws (x : RegIdx) (b : Byte) : (s.setReg x b).keyDraws = s.keyDraws := rfl

/-! ### setPc -/

@[simp] theorem setPc_v (a : Word) : (s.setPc a).v = s.v := rfl
@[simp] theorem setPc_pc (a : Word) : (s.setPc a).pc = a := rfl
@[simp] theorem setPc_i (a : Word) : (s.setPc a).i = s.i := rfl
@[simp] theorem setPc_stack (a : Word) : (s.setPc a).stack = s.stack := rfl
@[simp] theorem setPc_sp (a : Word) : (s.setPc a).sp = s.sp := rfl
@[simp] theorem setPc_dt (a : Word) : (s.setPc a).dt = s.dt := rfl
@[simp] theorem setPc_st (a : Word) : (s.setPc a).st = s.st := rfl
@[simp] theorem setPc_mem (a : Word) : (s.setPc a).mem = s.mem := rfl
@[simp] theorem setPc_fault (a : Word) : (s.setPc a).fault = s.fault := rfl
@[simp] theorem setPc_fb (a : Word) : (s.setPc a).fb = s.fb := rfl
@[simp] theorem setPc_redraws (a : Word) : (s.setPc a).redraws = s.redraws := rfl
@[simp] theorem setPc_cfg (a : Word) : (s.setPc a).cfg = s.cfg := rfl
@[simp] theorem setPc_randIn (a : Word) : (s.setPc a).randIn = s.randIn := rfl
@[simp] theorem setPc_randDraws (a : Word) : (s.setPc a).randDraws = s.randDraws := rfl
@[simp] theorem setPc_keyIn (a : Word) : (s.setPc a).keyIn = s.keyIn := rfl
@[simp] theorem setPc_keyDraws (a : Word) : (s.setPc a).keyDraws = s.keyDraws := rfl

/-! ### advance -/

@[simp] theorem advance_v : (s.advance).v = s.v := rfl
@[simp] theorem advance_pc : (s.advance).pc = s.pc + 2#16 := rfl
@[simp] theorem advance_i : (s.advance).i = s.i := rfl
@[simp] theorem advance_stack : (s.advance).stack = s.stack := rfl
@[simp] theorem advance_sp : (s.advance).sp = s.sp := rfl
@[simp] theorem advance_dt : (s.advance).dt = s.dt := rfl
@[simp] theorem advance_st : (s.advance).st = s.st := rfl
@[simp] theorem advance_mem : (s.advance).mem = s.mem := rfl
@[simp] theorem advance_fault : (s.advance).fault = s.fault := rfl
@[simp] theorem advance_fb : (s.advance).fb = s.fb := rfl
@[simp] theorem advance_redraws : (s.advance).redraws = s.redraws := rfl
@[simp] theorem advance_cfg : (s.advance).cfg = s.cfg := rfl
@[simp] theorem advance_randIn : (s.advance).randIn = s.randIn := rfl
@[simp] theorem advance_randDraws : (s.advance).randDraws = s.randDraws := rfl
@[simp] theorem advance_keyIn : (s.advance).keyIn = s.keyIn := rfl
@[simp] theorem advance_keyDraws : (s.advance).keyDraws = s.keyDraws := rfl

/-! ### skipIf -/

@[simp] theorem skipIf_v (c : Bool) : (s.skipIf c).v = s.v := rfl
@[simp] theorem skipIf_pc (c : Bool) : (s.skipIf c).pc = if c then s.pc + 2#16 else s.pc := rfl
@[simp] theorem skipIf_i (c : Bool) : (s.skipIf c).i = s.i := rfl
@[simp] theorem skipIf_stack (c : Bool) : (s.skipIf c).stack = s.stack := rfl
@[simp] theorem skipIf_sp (c : Bool) : (s.skipIf c).sp = s.sp := rfl
@[simp] theorem skipIf_dt (c : Bool) : (s.skipIf c).dt = s.dt := rfl
@[simp] theorem skipIf_st (c : Bool) : (s.skipIf c).st = s.st := rfl
@[simp] theorem skipIf_mem (c : Bool) : (s.skipIf c).mem = s.mem := rfl
@[simp] theorem skipIf_fault (c : Bool) : (s.skipIf c).fault = s.fault := rfl
@[simp] theorem skipIf_fb (c : Bool) : (s.skipIf c).fb = s.fb := rfl
@[simp] theorem skipIf_redraws (c : Bool) : (s.skipIf c).redraws = s.redraws := rfl
@[simp] theorem skipIf_cfg (c : Bool) : (s.skipIf c).cfg = s.cfg := rfl
@[simp] theorem skipIf_randIn (c : Bool) : (s.skipIf c).randIn = s.randIn := rfl
@[simp] theorem skipIf_randDraws (c : Bool) : (s.skipIf c).randDraws = s.randDraws := rfl
@[simp] theorem skipIf_keyIn (c : Bool) : (s.skipIf c).keyIn = s.keyIn := rfl
@[simp] theorem skipIf_keyDraws (c : Bool) : (s.skipIf c).keyDraws = s.keyDraws := rfl

/-! ### redraw -/

@[simp] theorem redraw_v : (redraw s).v = s.v := rfl
@[simp] theorem redraw_pc : (redraw s).pc = s.pc := rfl
@[simp] theorem redraw_i : (redraw s).i = s.i := rfl
@[simp] theorem redraw_stack : (redraw s).stack = s.stack := rfl
@[simp] theorem redraw_sp : (redraw s).sp = s.sp := rfl
@[simp] theorem redraw_dt : (redraw s).dt = s.dt := rfl
@[simp] theorem redraw_st : (redraw s).st = s.st := rfl
@[simp] theorem redraw_mem : (redraw s).mem = s.mem := rfl
@[simp] theorem redraw_fault : (redraw s).fault = s.fault := rfl
@[simp] theorem redraw_fb : (redraw s).fb = s.fb := rfl
@[simp] theorem redraw_redraws : (redraw s).redraws = s.redraws + 1 := rfl
@[simp] theorem redraw_cfg : (redraw s).cfg = s.cfg := rfl
@[simp] theorem redraw_randIn : (redraw s).randIn = s.randIn := rfl
@[simp] theorem redraw_randDraws : (redraw s).randDraws = s.randDraws := rfl
@[simp] theorem redraw_keyIn : (redraw s).keyIn = s.keyIn := rfl
@[simp] theorem redraw_keyDraws : (redraw s).keyDraws = s.keyDraws := rfl

/-! ### tick -/

@[simp] theorem tick_v : (tick s).v = s.v := rfl
@[simp] theorem tick_pc : (tick s).pc = s.pc := rfl
@[simp] theorem tick_i : (tick s).i = s.i := rfl
@[simp] theorem tick_stack : (tick s).stack = s.stack := rfl
@[simp] theorem tick_sp : (tick s).sp = s.sp := rfl
@[simp] theorem tick_dt : (tick s).dt = decTimer s.dt := rfl
@[simp] theorem tick_st : (tick s).st = decTimer s.st := rfl
@[simp] theorem tick_mem : (tick s).mem = s.mem := rfl
@[simp] theorem tick_fault : (tick s).fault = s.fault := rfl
@[simp] theorem tick_fb : (tick s).fb = s.fb := rfl
@[simp] theorem tick_redraws : (tick s).redraws = s.redraws := rfl
@[simp] theorem tick_cfg : (tick s).cfg = s.cfg := rfl
@[simp] theorem tick_randIn : (tick s).randIn = s.randIn := rfl
@[simp] theorem tick_randDraws : (tick s).randDraws = s.randDraws := rfl
@[simp] theorem tick_keyIn : (tick s).keyIn = s.keyIn := rfl
@[simp] theorem tick_keyDraws : (tick s).keyDraws = s.keyDraws := rfl

/-! ### drawRand -/

@[simp] theorem drawRand_v : (drawRand s).2.v = s.v := rfl
@[simp] theorem drawRand_pc : (drawRand s).2.pc = s.pc := rfl
@[simp] theorem drawRand_i : (drawRand s).2.i = s.i := rfl
@[simp] theorem drawRand_stack : (drawRand s).2.stack = s.stack := rfl
@[simp] theorem drawRand_sp : (drawRand s).2.sp = s.sp := rfl
@[simp] theorem drawRand_dt : (drawRand s).2.dt = s.dt := rfl
@[simp] theorem drawRand_st : (drawRand s).2.st = s.st := rfl
@[simp] theorem drawRand_mem : (drawRand s).2.mem = s.mem := rfl
@[simp] theorem drawRand_fault : (drawRand s).2.fault = s.fault := rfl
@[simp] theorem drawRand_fb : (drawRand s).2.fb = s.fb := rfl
@[simp] theorem drawRand_redraws : (drawRand s).2.redraws = s.redraws := rfl
@[simp] theorem drawRand_cfg : (drawRand s).2.cfg = s.cfg := rfl
@[simp] theorem drawRand_randIn : (drawRand s).2.randIn = s.randIn.tail := rfl
@[simp] theorem drawRand_randDraws : (drawRand s).2.randDraws = s.randDraws + 1 := rfl
@[simp] theorem drawRand_keyIn : (drawRand s).2.keyIn = s.keyIn := rfl
@[simp] theorem drawRand_keyDraws : (drawRand s).2.keyDraws = s.keyDraws := rfl

/-! ### pollKey -/

@[simp] theorem pollKey_v : (pollKey s).2.v = s.v := rfl
@[simp] theorem pollKey_pc : (pollKey s).2.pc = s.pc := rfl
@[simp] theorem pollKey_i : (pollKey s).2.i = s.i := rfl
@[simp] theorem pollKey_stack : (pollKey s).2.stack = s.stack := rfl
@[simp] theorem pollKey_sp : (pollKey s).2.sp = s.sp := rfl
@[simp] theorem pollKey_dt : (pollKey s).2.dt = s.dt := rfl
@[simp] theorem pollKey_st : (pollKey s).2.st = s.st := rfl
@[simp] theorem pollKey_mem : (pollKey s).2.mem = s.mem := rfl
@[simp] theorem pollKey_fault : (pollKey s).2.fault = s.fault := rfl
@[simp] theorem pollKey_fb : (pollKey s).2.fb = s.fb := rfl
@[simp] theorem pollKey_redraws : (pollKey s).2.redraws = s.redraws := rfl
@[simp] theorem pollKey_cfg : (pollKey s).2.cfg = s.cfg := rfl
@[simp] theorem pollKey_randIn : (pollKey s).2.randIn = s.randIn := rfl
@[simp] theorem pollKey_randDraws : (pollKey s).2.randDraws = s.randDraws := rfl
@[simp] theorem pollKey_keyIn : (pollKey s).2.keyIn = s.keyIn.tail := rfl
@[simp] theorem pollKey_keyDraws : (pollKey s).2.keyDraws = s.keyDraws + 1 := rfl

/-! ### placeWord -/

@[simp] theorem placeWord_v (w : Word) : (placeWord s w).v = s.v := rfl
@[simp] theorem placeWord_pc (w : Word) : (placeWord s w).pc = s.pc := rfl
@[simp] theorem placeWord_i (w : Word) : (placeWord s w).i = s.i := rfl
@[simp] theorem placeWord_stack (w : Word) : (placeWord s w).stack = s.stack := rfl
@[simp] theorem placeWord_sp (w : Word) : (placeWord s w).sp = s.sp := rfl
@[simp] theorem placeWord_dt (w : Word) : (placeWord s w).dt = s.dt := rfl
@[simp] theorem placeWord_st (w : Word) : (placeWord s w).st = s.st := rfl
@[simp] theorem placeWord_mem (w : Word) : (placeWord s w).mem = Memory.writeWord s.mem s.pc.toNat w := rfl
@[simp] theorem placeWord_fault (w : Word) : (placeWord s w).fault = none := rfl
@[simp] theorem placeWord_fb (w : Word) : (placeWord s w).fb = s.fb := rfl
@[simp] theorem placeWord_redraws (w : Word) : (placeWord s w).redraws = s.redraws := rfl
@[simp] theorem placeWord_cfg (w : Word) : (placeWord s w).cfg = { s.cfg with keySkips := s.cfg.keySkips || needsKeySkips w } := rfl
@[simp] theorem placeWord_randIn (w : Word) : (placeWord s w).randIn = s.randIn := rfl
@[simp] theorem placeWord_randDraws (w : Word) : (placeWord s w).randDraws = s.randDraws := rfl
@[simp] theorem placeWord_keyIn (w : Word) : (placeWord s w).keyIn = s.keyIn := rfl
@[simp] theorem placeWord_keyDraws (w : Word) : (placeWord s w).keyDraws = s.keyDraws := rfl

/-! ### Reading registers after an update -/

/-- A register read after a register write (R20): the value written, or the register as before. -/
theorem reg_setReg (x r : RegIdx) (b : Byte) : (s.setReg x b).reg r = if r = x then b else s.reg r := by
  simp only [State.reg, State.setReg, Vector.getElem_set, BitVec.toNat_inj, eq_comm]

@[simp] theorem reg_setReg_same (x : RegIdx) (b : Byte) : (s.setReg x b).reg x = b := by simp [reg_setReg]

theorem reg_setReg_ne {x r : RegIdx} (b : Byte) (h : r ≠ x) : (s.setReg x b).reg r = s.reg r := by
  simp [reg_setReg, h]

/-- A register reads by the register file alone. -/
theorem reg_congr {s t : State} (h : t.v = s.v) (r : RegIdx) : t.reg r = s.reg r := by simp [State.reg, h]

@[simp] theorem setPc_reg (a : Word) (r : RegIdx) : (s.setPc a).reg r = s.reg r := rfl
@[simp] theorem advance_reg (r : RegIdx) : (s.advance).reg r = s.reg r := rfl
@[simp] theorem skipIf_reg (c : Bool) (r : RegIdx) : (s.skipIf c).reg r = s.reg r := rfl
@[simp] theorem redraw_reg (r : RegIdx) : (redraw s).reg r = s.reg r := rfl
@[simp] theorem tick_reg (r : RegIdx) : (tick s).reg r = s.reg r := rfl
@[simp] theorem drawRand_reg (r : RegIdx) : (drawRand s).2.reg r = s.reg r := rfl
@[simp] theorem pollKey_reg (r : RegIdx) : (pollKey s).2.reg r = s.reg r := rfl
@[simp] theorem placeWord_reg (w : Word) (r : RegIdx) : (placeWord s w).reg r = s.reg r := rfl

/-- A result and then a flag (R141): VF reads the flag. -/
@[simp] theorem writeResultFlag_vf (x : RegIdx) (a f : Byte) : (writeResultFlag x a f s).reg vf = f := by
  simp [writeResultFlag]

/-- A result and then a flag (R141): any other register reads the result if it is Vx, else as before. -/
theorem writeResultFlag_reg {x r : RegIdx} (a f : Byte) (h : r ≠ vf) :
    (writeResultFlag x a f s).reg r = if r = x then a else s.reg r := by
  rw [writeResultFlag, reg_setReg_ne _ _ h, reg_setReg]

/-- Writing a result and a flag changes the register file alone. -/
theorem writeResultFlag_eq (x : RegIdx) (a f : Byte) :
    writeResultFlag x a f s = { s with v := (writeResultFlag x a f s).v } := rfl

end Sys2Proof.Machine
end

