-- ==== Sys2Proof/Laws/Ops.lean ====
section
/-!
SUPPORT. For each shared operation, everything it can do, said once: the call stack, the pixel calls, the draw
inputs, the end of a step. Later proofs cite these and do not unfold the operation.
-/

namespace Sys2Proof.Machine

/-! ### The invariant, read as its parts -/

theorem State.wf_iff (s : State) : s.wf = true ↔
    s.cfg.wf = true ∧ s.stack.length = s.cfg.stackDepth ∧ s.sp ≤ s.cfg.stackDepth ∧ Memory.wf s.mem = true ∧
      fbShape s.cfg s.fb = true := by
  simp [State.wf, and_assoc]

theorem Config.wf_iff (c : Config) : c.wf = true ↔ 1 ≤ c.gridW ∧ 1 ≤ c.gridH ∧ 16 ≤ c.stackDepth := by
  simp [Config.wf, and_assoc]

theorem fbShape_iff (c : Config) (fb : Framebuffer) : fbShape c fb = true ↔
    fb.length = c.gridH ∧ ∀ row ∈ fb, row.length = c.gridW := by
  simp [fbShape]

/-! ### Raising and ending a step -/

/-- Whatever a run inside a step did, the step has a next state: what was reached, with the latch set if it raised. -/
theorem finish_cases (r : Run) :
    (∃ t, r = .ok t ∧ finish r = .next t) ∨
    (∃ e t, r = .error (e, t) ∧ finish r = .next { t with fault := some e }) := by
  rcases r with ⟨e, t⟩ | t
  · exact .inr ⟨e, t, rfl, rfl⟩
  · exact .inl ⟨t, rfl, rfl⟩

/-! ### The call stack -/

/-- Push (R28). -/
theorem push_cases (a : Word) (s : State) :
    (s.sp = s.cfg.stackDepth ∧ push a s = .error .stackOverflow) ∨
    (s.sp ≠ s.cfg.stackDepth ∧ push a s = .ok { s with stack := s.stack.set s.sp a, sp := s.sp + 1 }) := by
  by_cases h : s.sp = s.cfg.stackDepth <;> simp [push, h]

/-- Pop (R28). -/
theorem pop_cases (s : State) :
    (s.sp = 0 ∧ pop s = .error .stackUnderflow) ∨
    (s.sp ≠ 0 ∧ pop s = .ok (s.stack.getD (s.sp - 1) 0#16, { s with sp := s.sp - 1 })) := by
  by_cases h : s.sp = 0 <;> simp [pop, h]

/-! ### The framebuffer -/

/-- A pixel read after a pixel write inside a shaped framebuffer (R216, R217). -/
theorem fbGet_fbSet {c : Config} {fb : Framebuffer} {row col : Nat} (hs : fbShape c fb = true)
    (hr : row < c.gridH) (hc : col < c.gridW) (b : Bool) (row' col' : Nat) :
    fbGet (fbSet fb row col b) row' col' = if row' = row ∧ col' = col then b else fbGet fb row' col' := by
  obtain ⟨hlen, hrow⟩ := (fbShape_iff c fb).1 hs
  have hr' : row < fb.length := by omega
  have hw : (fb[row]).length = c.gridW := hrow _ (List.getElem_mem hr')
  by_cases h1 : row' = row
  · subst h1
    by_cases h2 : col' = col
    · subst h2
      simp [fbGet, fbSet, List.getD_eq_getElem?_getD, hr', hw, hc]
    · simp [fbGet, fbSet, List.getD_eq_getElem?_getD, hr', h2, Ne.symm h2]
  · simp [fbGet, fbSet, List.getD_eq_getElem?_getD, h1, Ne.symm h1]

/-- A pixel write keeps the shape (R33). -/
theorem fbSet_shape {c : Config} {fb : Framebuffer} {row : Nat} (hs : fbShape c fb = true) (col : Nat) (b : Bool) :
    fbShape c (fbSet fb row col b) = true := by
  obtain ⟨hlen, hrow⟩ := (fbShape_iff c fb).1 hs
  by_cases hr : row < fb.length
  · refine (fbShape_iff _ _).2 ⟨by simp [fbSet, hlen], fun r h => ?_⟩
    rcases List.mem_or_eq_of_mem_set h with h | rfl
    · exact hrow r h
    · simpa [List.getD_eq_getElem?_getD, hr] using hrow _ (List.getElem_mem hr)
  · rwa [fbSet, List.set_eq_of_length_le (by omega)]

theorem fbFill_shape (c : Config) (b : Bool) : fbShape c (fbFill c b) = true := by
  refine (fbShape_iff _ _).2 ⟨by simp [fbFill], fun row h => ?_⟩
  simp [(List.mem_replicate.1 h).2]

theorem fbGet_fbFill_false (c : Config) (row col : Nat) : fbGet (fbFill c false) row col = false := by
  by_cases hr : row < c.gridH <;> by_cases hc : col < c.gridW <;>
    simp [fbGet, fbFill, List.getD_eq_getElem?_getD, hr, hc]

/-- Two framebuffers of one shape are equal if they read equal inside it. -/
theorem fb_ext {c : Config} {fb fb' : Framebuffer} (h : fbShape c fb = true) (h' : fbShape c fb' = true)
    (he : ∀ row col, row < c.gridH → col < c.gridW → fbGet fb row col = fbGet fb' row col) : fb = fb' := by
  obtain ⟨hl, hr⟩ := (fbShape_iff _ _).1 h
  obtain ⟨hl', hr'⟩ := (fbShape_iff _ _).1 h'
  refine List.ext_getElem (by omega) fun row h1 h2 => ?_
  have hw := hr _ (List.getElem_mem h1)
  have hw' := hr' _ (List.getElem_mem h2)
  refine List.ext_getElem (by omega) fun col h3 h4 => ?_
  simpa [fbGet, List.getD_eq_getElem?_getD, h1, h2, h3, h4] using he row col (by omega) (by omega)

/-! ### The draw inputs -/

/-- A lined-up byte is the one drawn (R145). -/
theorem drawRand_fst_cons (s : State) (r : Byte) (rest : List Byte) (h : s.randIn = r :: rest) :
    (drawRand s).1 = r := by
  simp [drawRand, h]

/-- A lined-up answer is the one polled (R219). -/
theorem pollKey_fst_cons (s : State) (k : Option Nibble) (rest : List (Option Nibble)) (h : s.keyIn = k :: rest) :
    (pollKey s).1 = k := by
  simp [pollKey, h]

end Sys2Proof.Machine
end

