-- ==== Sys2Proof/Laws/Display.lean ====
section
/-!
SUPPORT. DRW as a plain fold: in a state of the invariant no pixel call raises, and the whole instruction is one
pass over the sprite bits it draws, in order (R173).
-/

namespace Sys2Proof.Machine

/-- The pixels a DRW visits, in order, each with its sprite bit (R172, R173, R177). -/
def drawEvents (s : State) (x0 y0 base n : Nat) : List (Nat × Nat × Bool) :=
  (List.range n).flatMap fun r =>
    match drawRowOf s.cfg y0 r with
    | none => []
    | some row => (List.range 8).map fun b => (row, drawColOf s.cfg x0 b, spriteBit (Memory.read s.mem (base + r)) b)

/-- One visited pixel: XOR it and OR the collision into VF (R173, R174). -/
def drawEvent (s : State) (e : Nat × Nat × Bool) : State :=
  ({ s with fb := fbSet s.fb e.1 e.2.1 (s.pixel e.1 e.2.1 ^^ e.2.2) }).setReg vf
    (s.reg vf ||| (if s.pixel e.1 e.2.1 && e.2.2 then 1#8 else 0#8))

@[simp] theorem drawEvent_cfg (s : State) (e) : (drawEvent s e).cfg = s.cfg := rfl
@[simp] theorem drawEvent_mem (s : State) (e) : (drawEvent s e).mem = s.mem := rfl
@[simp] theorem drawEvent_fb (s : State) (e) :
    (drawEvent s e).fb = fbSet s.fb e.1 e.2.1 (s.pixel e.1 e.2.1 ^^ e.2.2) := rfl
@[simp] theorem drawEvent_reg_vf (s : State) (e) :
    (drawEvent s e).reg vf = s.reg vf ||| (if s.pixel e.1 e.2.1 && e.2.2 then 1#8 else 0#8) :=
  reg_setReg_same _ _ _

theorem drawEvent_reg_ne (s : State) (e) {r : RegIdx} (h : r ≠ vf) : (drawEvent s e).reg r = s.reg r :=
  reg_setReg_ne _ _ h

/-- DRW changes the registers and the framebuffer of what it draws, and nothing else. -/
theorem drawEvent_eq (s : State) (e) : drawEvent s e = { s with v := (drawEvent s e).v, fb := (drawEvent s e).fb } := rfl

theorem foldl_drawEvent_eq (l : List (Nat × Nat × Bool)) : ∀ s : State,
    l.foldl drawEvent s = { s with v := (l.foldl drawEvent s).v, fb := (l.foldl drawEvent s).fb } := by
  induction l with
  | nil => intro s; rfl
  | cons e l ih => intro s; rw [List.foldl_cons, ih]; rfl

theorem foldl_drawEvent_cfg (l : List (Nat × Nat × Bool)) (s : State) : (l.foldl drawEvent s).cfg = s.cfg := by
  rw [foldl_drawEvent_eq]

theorem foldl_drawEvent_mem (l : List (Nat × Nat × Bool)) (s : State) : (l.foldl drawEvent s).mem = s.mem := by
  rw [foldl_drawEvent_eq]

theorem foldl_drawEvent_reg_ne (l : List (Nat × Nat × Bool)) {r : RegIdx} (h : r ≠ vf) : ∀ s : State,
    (l.foldl drawEvent s).reg r = s.reg r := by
  induction l with
  | nil => intro s; rfl
  | cons e l ih => intro s; rw [List.foldl_cons, ih, drawEvent_reg_ne s e h]

/-- Drawing keeps the framebuffer's shape (R33). -/
theorem foldl_drawEvent_shape (l : List (Nat × Nat × Bool)) : ∀ s : State, fbShape s.cfg s.fb = true →
    fbShape s.cfg (l.foldl drawEvent s).fb = true := by
  induction l with
  | nil => intro s h; exact h
  | cons e l ih => intro s h; exact ih (drawEvent s e) (fbSet_shape h _ _)

/-- A row that is drawn lies in the grid (R172). -/
theorem drawRowOf_lt {c : Config} (h : 1 ≤ c.gridH) {y0 r row : Nat} (hr : drawRowOf c y0 r = some row) :
    row < c.gridH := by
  cases hv : c.vwrapMode with
  | wrap =>
    simp only [drawRowOf, hv, Option.some.injEq] at hr
    exact hr ▸ Nat.mod_lt _ h
  | clip =>
    simp only [drawRowOf, hv] at hr
    split at hr
    · simp at hr; omega
    · simp at hr

/-- Every column drawn lies in the grid (R172). -/
theorem drawColOf_lt {c : Config} (h : 1 ≤ c.gridW) (x0 b : Nat) : drawColOf c x0 b < c.gridW := Nat.mod_lt _ h

/-- One pixel of DRW inside the grid raises nothing. -/
theorem drawPixel_eq {s : State} (sprite : Byte) {row : Nat} (x0 b : Nat) (hr : row < s.cfg.gridH)
    (hw : 1 ≤ s.cfg.gridW) :
    drawPixel sprite row x0 s b = .ok (drawEvent s (row, drawColOf s.cfg x0 b, spriteBit sprite b)) := by
  simp [drawPixel, pixelRead, pixelWrite, inGrid, hr, drawColOf_lt hw, drawEvent, State.pixel]
  rfl

theorem foldlM_drawPixel_eq (c : Config) (sprite : Byte) {row : Nat} (x0 : Nat) (hr : row < c.gridH)
    (hw : 1 ≤ c.gridW) (bs : List Nat) : ∀ s : State, s.cfg = c →
    bs.foldlM (drawPixel sprite row x0) s =
      .ok ((bs.map fun b => (row, drawColOf c x0 b, spriteBit sprite b)).foldl drawEvent s) := by
  induction bs with
  | nil => intro s _; rfl
  | cons b bs ih =>
    intro s hs
    rw [List.foldlM_cons, drawPixel_eq sprite x0 b (hs ▸ hr) (hs ▸ hw), hs]
    exact ih _ hs

/-- The rows of a DRW, in a legal configuration, are the fold over the pixels they visit. -/
theorem foldlM_drawRow_eq (c : Config) (m : Memory) (hc : c.wf = true) (x0 y0 base : Nat) (rs : List Nat) :
    ∀ s : State, s.cfg = c → s.mem = m →
    rs.foldlM (drawRow x0 y0 base) s =
      .ok ((rs.flatMap fun r => match drawRowOf c y0 r with
        | none => []
        | some row => (List.range 8).map fun b => (row, drawColOf c x0 b, spriteBit (Memory.read m (base + r)) b)).foldl
        drawEvent s) := by
  obtain ⟨hw, hh, -⟩ := (Config.wf_iff c).1 hc
  induction rs with
  | nil => intro s _ _; rfl
  | cons r rs ih =>
    intro s hs hm
    rw [List.foldlM_cons, List.flatMap_cons, List.foldl_append]
    cases hrow : drawRowOf c y0 r with
    | none =>
      have : drawRow x0 y0 base s r = .ok s := by simp [drawRow, hs, hrow]
      rw [this]
      exact ih s hs hm
    | some row =>
      have : drawRow x0 y0 base s r = .ok (((List.range 8).map fun b =>
          (row, drawColOf c x0 b, spriteBit (Memory.read m (base + r)) b)).foldl drawEvent s) := by
        simp only [drawRow, hs, hrow, hm]
        exact foldlM_drawPixel_eq c _ x0 (drawRowOf_lt hh hrow) hw _ s hs
      rw [this]
      exact ih _ (by rw [foldl_drawEvent_cfg, hs]) (by rw [foldl_drawEvent_mem, hm])

theorem drawStart_cases (s : State) :
    (s.cfg.drwVfMode = .clearThenOr ∧ drawStart s = s.setReg vf 0#8) ∨
    (s.cfg.drwVfMode = .orIntoOld ∧ drawStart s = s) := by
  cases h : s.cfg.drwVfMode <;> simp [drawStart, h]

theorem drawStart_eq (s : State) : drawStart s = { s with v := (drawStart s).v } := by
  rcases drawStart_cases s with ⟨_, h⟩ | ⟨_, h⟩
  · rw [h]; rfl
  · rw [h]

theorem drawStart_reg_ne (s : State) {r : RegIdx} (h : r ≠ vf) : (drawStart s).reg r = s.reg r := by
  rcases drawStart_cases s with ⟨_, he⟩ | ⟨_, he⟩ <;> rw [he]
  exact reg_setReg_ne _ _ h

/-- DRW in a legal configuration: one pass over the pixels it visits, then one redraw (R173, R175). -/
theorem execDrw_eq (x y : RegIdx) (n : Nibble) {s : State} (hc : s.cfg.wf = true) :
    execDrw x y n s = .next (redraw ((drawEvents s (s.reg x).toNat (s.reg y).toNat s.i.toNat n.toNat).foldl drawEvent
      (drawStart s))) := by
  have h := foldlM_drawRow_eq s.cfg s.mem hc (s.reg x).toNat (s.reg y).toNat s.i.toNat (List.range n.toNat)
    (drawStart s) (by rw [drawStart_eq]) (by rw [drawStart_eq])
  simp only [execDrw, h]
  rfl

/-- Visited pixels lie in the grid (R172). -/
theorem drawEvents_inGrid {s : State} (hc : s.cfg.wf = true) {x0 y0 base n : Nat} {e : Nat × Nat × Bool}
    (he : e ∈ drawEvents s x0 y0 base n) : e.1 < s.cfg.gridH ∧ e.2.1 < s.cfg.gridW := by
  obtain ⟨hw, hh, -⟩ := (Config.wf_iff _).1 hc
  simp only [drawEvents, List.mem_flatMap] at he
  obtain ⟨r, -, he⟩ := he
  cases hrow : drawRowOf s.cfg y0 r with
  | none => simp [hrow] at he
  | some row =>
    simp only [hrow, List.mem_map] at he
    obtain ⟨b, -, rfl⟩ := he
    exact ⟨drawRowOf_lt hh hrow, drawColOf_lt hw x0 b⟩

/-! ### DRW in any state, legal or not -/

/-- What drawing may change: VF and the framebuffer. -/
def DrawFrame (s t : State) : Prop := (∀ r, r ≠ vf → t.reg r = s.reg r) ∧ t = { s with v := t.v, fb := t.fb }

theorem DrawFrame.refl (s : State) : DrawFrame s s := ⟨fun _ _ => rfl, rfl⟩

theorem DrawFrame.trans {s t u : State} (h : DrawFrame s t) (h' : DrawFrame t u) : DrawFrame s u :=
  ⟨fun r hr => (h'.1 r hr).trans (h.1 r hr), by rw [h'.2, h.2]⟩

/-- The state a run inside a step has reached, whether it goes on or raises. -/
def runState : Run → State
  | .ok t => t
  | .error (_, t) => t

theorem foldlM_drawFrame {α : Type} (f : State → α → Run) (hf : ∀ s a, DrawFrame s (runState (f s a))) (l : List α) :
    ∀ s, DrawFrame s (runState (l.foldlM f s)) := by
  induction l with
  | nil => intro s; exact DrawFrame.refl s
  | cons a l ih =>
    intro s
    rw [List.foldlM_cons]
    have h := hf s a
    rcases hfa : f s a with ⟨e, t⟩ | t
    · rw [hfa] at h; exact h
    · rw [hfa] at h; exact h.trans (ih t)

theorem drawPixel_drawFrame (sprite : Byte) (row x0 : Nat) (s : State) (b : Nat) :
    DrawFrame s (runState (drawPixel sprite row x0 s b)) := by
  unfold drawPixel
  rcases pixelRead row (drawColOf s.cfg x0 b) s with e | cur
  · exact DrawFrame.refl s
  · simp only [pixelWrite]
    by_cases h : inGrid s.cfg row (drawColOf s.cfg x0 b) = true
    · simp only [h, if_true]
      exact ⟨fun r hr => reg_setReg_ne _ _ hr, rfl⟩
    · simp only [h]
      exact DrawFrame.refl s

theorem drawRow_drawFrame (x0 y0 base : Nat) (s : State) (r : Nat) :
    DrawFrame s (runState (drawRow x0 y0 base s r)) := by
  unfold drawRow
  cases drawRowOf s.cfg y0 r with
  | none => exact DrawFrame.refl s
  | some row => exact foldlM_drawFrame _ (drawPixel_drawFrame _ _ _) _ s

/-- The frame of DRW in every state: VF, the framebuffer, the redraw count and the latch. -/
theorem execDrw_frame {x y : RegIdx} {n : Nibble} {s t : State} (h : execDrw x y n s = .next t) :
    (∀ r, r ≠ vf → t.reg r = s.reg r) ∧
      t = { s with v := t.v, fb := t.fb, redraws := t.redraws, fault := t.fault } := by
  have hf := foldlM_drawFrame _ (drawRow_drawFrame (s.reg x).toNat (s.reg y).toNat s.i.toNat) (List.range n.toNat)
    (drawStart s)
  unfold execDrw at h
  rcases hr : (List.range n.toNat).foldlM (drawRow (s.reg x).toNat (s.reg y).toNat s.i.toNat) (drawStart s) with
    ⟨e, u⟩ | u
  · rw [hr] at h hf
    cases h
    refine ⟨fun r hr => (hf.1 r hr).trans (drawStart_reg_ne s hr), ?_⟩
    have h2 := hf.2
    simp only [runState] at h2
    rw [h2, drawStart_eq]
  · rw [hr] at h hf
    cases h
    refine ⟨fun r hr => (hf.1 r hr).trans (drawStart_reg_ne s hr), ?_⟩
    have h2 := hf.2
    simp only [runState] at h2
    rw [h2, drawStart_eq]
    rfl

end Sys2Proof.Machine
end

