-- ==== Sys2Proof/Laws/Encode.lean ====
section
/-!
SUPPORT. The bits of each encoding format (30_encoding.md R72), and the fields of a word read back from them.
-/

namespace Sys2Proof

theorem encodeA12_getLsbD (op : Nibble) (nnn : Addr) (k : Nat) :
    (encodeA12 op nnn).getLsbD k = if k < 12 then nnn.getLsbD k else op.getLsbD (k - 12) :=
  BitVec.getLsbD_append (x := op) (y := nnn)

theorem encodeRB_getLsbD (op : Nibble) (x : RegIdx) (nn : Byte) (k : Nat) :
    (encodeRB op x nn).getLsbD k =
      if k < 8 then nn.getLsbD k else if k < 12 then x.getLsbD (k - 8) else op.getLsbD (k - 12) := by
  have h1 : (op ++ x : BitVec 8).getLsbD (k - 8) = if k - 8 < 4 then x.getLsbD (k - 8) else
      op.getLsbD (k - 8 - 4) := BitVec.getLsbD_append (x := op) (y := x)
  have h2 : (encodeRB op x nn).getLsbD k = if k < 8 then nn.getLsbD k else
      (op ++ x : BitVec 8).getLsbD (k - 8) := BitVec.getLsbD_append (x := (op ++ x : BitVec 8)) (y := nn)
  rw [h2, h1, Nat.sub_sub]
  by_cases hk : k < 8
  · rw [if_pos hk, if_pos hk]
  · rw [if_neg hk, if_neg hk]
    exact if_congr (by omega) rfl rfl

theorem encodeRRN_getLsbD (op : Nibble) (x y : RegIdx) (n : Nibble) (k : Nat) :
    (encodeRRN op x y n).getLsbD k =
      if k < 4 then n.getLsbD k else if k < 8 then y.getLsbD (k - 4) else if k < 12 then x.getLsbD (k - 8)
      else op.getLsbD (k - 12) := by
  have h2 : (y ++ n : BitVec 8).getLsbD k = if k < 4 then n.getLsbD k else y.getLsbD (k - 4) :=
    BitVec.getLsbD_append (x := y) (y := n)
  rw [show encodeRRN op x y n = encodeRB op x (y ++ n : BitVec 8) from rfl, encodeRB_getLsbD, h2]
  by_cases h4 : k < 4
  · rw [if_pos (by omega), if_pos h4, if_pos h4]
  · rw [if_neg h4, if_neg h4]

/-- Words are equal if their sixteen bits are. -/
theorem word_ext {v w : Word} (h : ∀ k, k < 16 → v.getLsbD k = w.getLsbD k) : v = w :=
  BitVec.eq_of_getLsbD_eq h

end Sys2Proof
end

