-- ==== Sys2Proof/Laws/PerInstr.lean ====
section
/-!
SUPPORT. Per instruction: the encoding matches its row of spec/opcode_table.json, that is, under the row's mask it
is the row's match, whatever the operands are.
-/

namespace Sys2Proof.Laws

theorem maskA12 (op : Nibble) (nnn : Addr) : encodeA12 op nnn &&& 0xF000#16 = encodeA12 op 0#12 :=
  word_ext fun k hk => by
    rw [BitVec.getLsbD_and, encodeA12_getLsbD, encodeA12_getLsbD]
    interval_cases k <;> simp

theorem maskRB (op : Nibble) (x : RegIdx) (nn : Byte) :
    encodeRB op x nn &&& 0xF000#16 = encodeRB op 0#4 0#8 :=
  word_ext fun k hk => by
    rw [BitVec.getLsbD_and, encodeRB_getLsbD, encodeRB_getLsbD]
    interval_cases k <;> simp

theorem maskR (op : Nibble) (x : RegIdx) (nn : Byte) : encodeRB op x nn &&& 0xF0FF#16 = encodeRB op 0#4 nn :=
  word_ext fun k hk => by
    rw [BitVec.getLsbD_and, encodeRB_getLsbD, encodeRB_getLsbD]
    interval_cases k <;> simp

theorem maskRR (op : Nibble) (x y : RegIdx) (n : Nibble) :
    encodeRRN op x y n &&& 0xF00F#16 = encodeRRN op 0#4 0#4 n :=
  word_ext fun k hk => by
    rw [BitVec.getLsbD_and, encodeRRN_getLsbD, encodeRRN_getLsbD]
    interval_cases k <;> simp

theorem maskRRN (op : Nibble) (x y : RegIdx) (n : Nibble) :
    encodeRRN op x y n &&& 0xF000#16 = encodeRRN op 0#4 0#4 0#4 :=
  word_ext fun k hk => by
    rw [BitVec.getLsbD_and, encodeRRN_getLsbD, encodeRRN_getLsbD]
    interval_cases k <;> simp

namespace EncodingMatchesRow

/-- The encoding of the instruction, under its opcode-table row's mask, is the row's match. -/
def Statement (i : Instr) : Prop := encode i &&& i.rowMask = i.rowMatch

theorem cls : Statement .cls := by unfold Statement; decide

theorem ret : Statement .ret := by unfold Statement; decide

theorem jp (nnn : Addr) : Statement (.jp nnn) :=
  (maskA12 0x1 nnn).trans rfl

theorem call (nnn : Addr) : Statement (.call nnn) :=
  (maskA12 0x2 nnn).trans rfl

theorem seVB (x : RegIdx) (nn : Byte) : Statement (.seVB x nn) :=
  (maskRB 0x3 x nn).trans rfl

theorem sneVB (x : RegIdx) (nn : Byte) : Statement (.sneVB x nn) :=
  (maskRB 0x4 x nn).trans rfl

theorem seVV (x y : RegIdx) : Statement (.seVV x y) :=
  (maskRR 0x5 x y 0x0).trans rfl

theorem ldVB (x : RegIdx) (nn : Byte) : Statement (.ldVB x nn) :=
  (maskRB 0x6 x nn).trans rfl

theorem addVB (x : RegIdx) (nn : Byte) : Statement (.addVB x nn) :=
  (maskRB 0x7 x nn).trans rfl

theorem ldVV (x y : RegIdx) : Statement (.ldVV x y) :=
  (maskRR 0x8 x y 0x0).trans rfl

theorem orVV (x y : RegIdx) : Statement (.orVV x y) :=
  (maskRR 0x8 x y 0x1).trans rfl

theorem andVV (x y : RegIdx) : Statement (.andVV x y) :=
  (maskRR 0x8 x y 0x2).trans rfl

theorem xorVV (x y : RegIdx) : Statement (.xorVV x y) :=
  (maskRR 0x8 x y 0x3).trans rfl

theorem addVV (x y : RegIdx) : Statement (.addVV x y) :=
  (maskRR 0x8 x y 0x4).trans rfl

theorem subVV (x y : RegIdx) : Statement (.subVV x y) :=
  (maskRR 0x8 x y 0x5).trans rfl

theorem shrVV (x y : RegIdx) : Statement (.shrVV x y) :=
  (maskRR 0x8 x y 0x6).trans rfl

theorem subnVV (x y : RegIdx) : Statement (.subnVV x y) :=
  (maskRR 0x8 x y 0x7).trans rfl

theorem shlVV (x y : RegIdx) : Statement (.shlVV x y) :=
  (maskRR 0x8 x y 0xE).trans rfl

theorem sneVV (x y : RegIdx) : Statement (.sneVV x y) :=
  (maskRR 0x9 x y 0x0).trans rfl

theorem ldI (nnn : Addr) : Statement (.ldI nnn) :=
  (maskA12 0xA nnn).trans rfl

theorem jpV0 (nnn : Addr) : Statement (.jpV0 nnn) :=
  (maskA12 0xB nnn).trans rfl

theorem rnd (x : RegIdx) (nn : Byte) : Statement (.rnd x nn) :=
  (maskRB 0xC x nn).trans rfl

theorem drw (x y : RegIdx) (n : Nibble) : Statement (.drw x y n) :=
  (maskRRN 0xD x y n).trans rfl

theorem skp (x : RegIdx) : Statement (.skp x) :=
  (maskR 0xE x 0x9E).trans rfl

theorem sknp (x : RegIdx) : Statement (.sknp x) :=
  (maskR 0xE x 0xA1).trans rfl

end EncodingMatchesRow

end Sys2Proof.Laws
end

