-- ==== Sys2Proof/Laws/Step.lean ====
section
/-!
SUPPORT. What a step can do, said once (40_control.md R100): it is halted, or it runs the decoded instruction after
the fetch advance, or it raises IllegalInstruction. Every instruction has a next state in every state, and a
schedule after termination changes the timers alone.
-/

namespace Sys2Proof.Machine

/-- The three cases of a step request. -/
theorem step_cases (s : State) :
    (∃ e, s.fault = some e ∧ step s = .fault (.halted e)) ∨
    (∃ i, s.fault = none ∧ s.fetched = .ok i ∧ step s = exec i s.advance) ∨
    (∃ e, s.fault = none ∧ s.fetched = .error e ∧
      step s = .next { s.advance with fault := some .illegalInstruction }) := by
  cases hf : s.fault with
  | some e => exact .inl ⟨e, rfl, by simp [step, hf]⟩
  | none =>
    cases hd : s.fetched with
    | ok i => exact .inr (.inl ⟨i, rfl, rfl, by simp [step, hf, hd]⟩)
    | error e => exact .inr (.inr ⟨e, rfl, rfl, by simp [step, hf, hd, raise]⟩)

/-- After the termination signal only the timers change. -/
theorem afterTermination_eq (es : List Event) : ∀ s : State,
    afterTermination es s = { s with dt := (afterTermination es s).dt, st := (afterTermination es s).st } := by
  induction es with
  | nil => intro s; rfl
  | cons e es ih =>
    intro s
    cases e with
    | tick => exact ih (tick s)
    | step => exact ih s
    | terminate => exact ih s

/-- RET: it pops, or raises in the state as it stands (R103). -/
theorem execRet_cases (s : State) :
    (s.sp = 0 ∧ execRet s = .next { s with fault := some .stackUnderflow }) ∨
    (s.sp ≠ 0 ∧ execRet s = .next { s with pc := s.stack.getD (s.sp - 1) 0#16, sp := s.sp - 1 }) := by
  rcases pop_cases s with ⟨h, hp⟩ | ⟨h, hp⟩
  · exact .inl ⟨h, by rw [execRet, hp]; rfl⟩
  · exact .inr ⟨h, by rw [execRet, hp]; rfl⟩

/-- CALL: it pushes and jumps, or raises in the state as it stands (R105). -/
theorem execCall_cases (nnn : Addr) (s : State) :
    (s.sp = s.cfg.stackDepth ∧ execCall nnn s = .next { s with fault := some .stackOverflow }) ∨
    (s.sp ≠ s.cfg.stackDepth ∧ execCall nnn s =
      .next { s with stack := s.stack.set s.sp s.pc, sp := s.sp + 1, pc := addrWord nnn }) := by
  rcases push_cases s.pc s with ⟨h, hp⟩ | ⟨h, hp⟩
  · exact .inl ⟨h, by rw [execCall, hp]; rfl⟩
  · exact .inr ⟨h, by rw [execCall, hp]; rfl⟩

/-- No instruction faults or is refused, in any state whatever. -/
theorem exec_has_next (i : Instr) (s : State) : ∃ t, exec i s = .next t := by
  cases i with
  | ret => rcases execRet_cases s with ⟨-, h⟩ | ⟨-, h⟩ <;> exact ⟨_, h⟩
  | call nnn => rcases execCall_cases nnn s with ⟨-, h⟩ | ⟨-, h⟩ <;> exact ⟨_, h⟩
  | drw x y n => exact (finish_cases _).elim (fun ⟨_, _, h⟩ => ⟨_, h⟩) (fun ⟨_, _, _, h⟩ => ⟨_, h⟩)
  | _ => exact ⟨_, rfl⟩

/-- A running core always steps: only a latched error stops it (R207). -/
theorem step_has_next {s : State} (h : s.fault = none) : ∃ t, step s = .next t := by
  rcases step_cases s with ⟨e, he, -⟩ | ⟨i, -, -, hs⟩ | ⟨e, -, -, hs⟩
  · simp [h] at he
  · exact hs ▸ exec_has_next i _
  · exact ⟨_, hs⟩

end Sys2Proof.Machine
end

