-- ==== Sys2Proof/Machine/Assembly.lean ====
section
/-!
DEFINITION. The assembler syntax (30_encoding.md R83): how an instruction is written. It has no pseudo-instruction
(R84), and nothing in the machine reads it.
-/

namespace Sys2Proof

/-- One hex digit. -/
def hexDigit (n : Nibble) : String :=
  match ["0", "1", "2", "3", "4", "5", "6", "7", "8", "9", "A", "B", "C", "D", "E", "F"][n.toNat]? with
  | some d => d
  | none => ""

/-- A register as R83 writes it: V0 to VF. -/
def regText (r : RegIdx) : String := "V" ++ hexDigit r

/-- A 4-bit immediate in hex. -/
def immText4 (n : Nibble) : String := "0x" ++ hexDigit n

/-- An 8-bit immediate in hex. -/
def immText8 (nn : Byte) : String := "0x" ++ hexDigit (nn.extractLsb' 4 4) ++ hexDigit (nn.extractLsb' 0 4)

/-- A 12-bit immediate in hex. -/
def immText12 (nnn : Addr) : String :=
  "0x" ++ hexDigit (nnn.extractLsb' 8 4) ++ hexDigit (nnn.extractLsb' 4 4) ++ hexDigit (nnn.extractLsb' 0 4)

/-- A register and a byte. -/
def textVB (op : String) (x : RegIdx) (nn : Byte) : String := op ++ " " ++ regText x ++ ", " ++ immText8 nn

/-- Two registers. -/
def textVV (op : String) (x y : RegIdx) : String := op ++ " " ++ regText x ++ ", " ++ regText y

/-- The row of R83's table for an instruction, its immediates in hex. -/
def Instr.assembly : Instr → String
  | .cls => "CLS"
  | .ret => "RET"
  | .jp nnn => "JP " ++ immText12 nnn
  | .call nnn => "CALL " ++ immText12 nnn
  | .seVB x nn => textVB "SE" x nn
  | .sneVB x nn => textVB "SNE" x nn
  | .seVV x y => textVV "SE" x y
  | .ldVB x nn => textVB "LD" x nn
  | .addVB x nn => textVB "ADD" x nn
  | .ldVV x y => textVV "LD" x y
  | .orVV x y => textVV "OR" x y
  | .andVV x y => textVV "AND" x y
  | .xorVV x y => textVV "XOR" x y
  | .addVV x y => textVV "ADD" x y
  | .subVV x y => textVV "SUB" x y
  | .shrVV x y => textVV "SHR" x y
  | .subnVV x y => textVV "SUBN" x y
  | .shlVV x y => textVV "SHL" x y
  | .sneVV x y => textVV "SNE" x y
  | .ldI nnn => "LD I, " ++ immText12 nnn
  | .jpV0 nnn => "JP V0, " ++ immText12 nnn
  | .rnd x nn => textVB "RND" x nn
  | .drw x y n => textVV "DRW" x y ++ ", " ++ immText4 n
  | .skp x => "SKP " ++ regText x
  | .sknp x => "SKNP " ++ regText x

end Sys2Proof
end

