-- ==== Sys2Proof/Tests/Slice0.lean ====
section
/-!
SUPPORT. The model's own tests: expected results from 95_test_vectors.md (named at each test), words written out
from the encodings of 30_encoding.md, ill-formed terms the checks refuse, and a witness for the hypotheses of each
statement.
-/

namespace Sys2Proof.Tests

open Sys2Proof Sys2Proof.Machine

/-! ### Small states -/

/-- The reset state with one word at 0x200. -/
def st (w : Word) : State := { State.reset with mem := Memory.writeWord [] 0x200 w }

/-- V1, V2 and VF set. -/
def st12 (w : Word) (a b f : Byte) : State := (((st w).setReg 1 a).setReg 2 b).setReg vf f

/-- Another shift and jump mode. -/
def shifted (s : State) : State := { s with cfg := { s.cfg with shiftJumpMode := .shifted } }

/-- Another vertical rule. -/
def wrapped (s : State) : State := { s with cfg := { s.cfg with vwrapMode := .wrap } }

/-- A grid 4 pixels wide, on which a sprite row overlaps itself. -/
def narrow (s : State) : State :=
  { s with cfg := { s.cfg with gridW := 4 }, fb := List.replicate s.cfg.gridH (List.replicate 4 false) }

/-- The other reading of DRW's flag. -/
def orMode (s : State) : State := { s with cfg := { s.cfg with drwVfMode := .orIntoOld } }

/-- SKP and SKNP admitted, with a poll answer lined up. -/
def keyed (k : Option Nibble) (s : State) : State := { s with cfg := { s.cfg with keySkips := true }, keyIn := [k] }

/-- Two sprite bytes at 0x300, I there, and V0, V1 as coordinates. -/
def sprite (w : Word) (b0 b1 x y : Byte) : State :=
  { ((st w).setReg 0 x).setReg 1 y with
    mem := Memory.writeBytes (Memory.writeWord [] 0x200 w) 0x300 [b0, b1]
    i := 0x300 }

/-- The state after one step, if it has one. -/
def after (s : State) : Option State :=
  match step s with
  | .next t => some t
  | .fault _ => none
  | .refused _ => none

/-- Whether a step has no transition. -/
def stops (s : State) : Bool := (after s).isNone

/-! ### WellFormed and Config: one ill-formed term per check -/

theorem test_wf_refuses_skp : Instr.wf false (.skp 0x5) = false := by decide
theorem test_wf_refuses_sknp : Instr.wf false (.sknp 0x5) = false := by decide
theorem test_wf_admits_skp : Instr.wf true (.skp 0x5) = true := by decide
theorem test_cfg_refuses_width : Config.wf { Config.base with gridW := 0 } = false := by decide
theorem test_cfg_refuses_height : Config.wf { Config.base with gridH := 0 } = false := by decide
theorem test_cfg_refuses_depth : Config.wf { Config.base with stackDepth := 15 } = false := by decide
theorem test_mem_refuses_zero : Memory.wf [(0x200, 0#8)] = false := by decide
theorem test_mem_refuses_order : Memory.wf [(0x201, 1#8), (0x200, 1#8)] = false := by decide
theorem test_mem_refuses_range : Memory.wf [(0x1000, 1#8)] = false := by decide

/-! ### Decoding: words written out from R75 and R77, every constructor -/

theorem test_decode_cls : decodeWord false 0b0000000011100000#16 = .ok .cls := by decide
theorem test_decode_ret : decodeWord false 0b0000000011101110#16 = .ok .ret := by decide
theorem test_decode_jp : decodeWord false 0b0001001000110100#16 = .ok (.jp 0x234) := by decide
theorem test_decode_call : decodeWord false 0b0010101010111100#16 = .ok (.call 0xABC) := by decide
theorem test_decode_seVB : decodeWord false 0b0011101000101011#16 = .ok (.seVB 0xA 0x2B) := by decide
theorem test_decode_sneVB : decodeWord false 0b0100101000101011#16 = .ok (.sneVB 0xA 0x2B) := by decide
theorem test_decode_seVV : decodeWord false 0b0101101010110000#16 = .ok (.seVV 0xA 0xB) := by decide
theorem test_decode_ldVB : decodeWord false 0b0110010010011001#16 = .ok (.ldVB 0x4 0x99) := by decide
theorem test_decode_addVB : decodeWord false 0b0111010011111111#16 = .ok (.addVB 0x4 0xFF) := by decide
theorem test_decode_ldVV : decodeWord false 0b1000000100100000#16 = .ok (.ldVV 0x1 0x2) := by decide
theorem test_decode_or : decodeWord false 0b1000000100100001#16 = .ok (.orVV 0x1 0x2) := by decide
theorem test_decode_and : decodeWord false 0b1000000100100010#16 = .ok (.andVV 0x1 0x2) := by decide
theorem test_decode_xor : decodeWord false 0b1000000100100011#16 = .ok (.xorVV 0x1 0x2) := by decide
theorem test_decode_addVV : decodeWord false 0b1000000100100100#16 = .ok (.addVV 0x1 0x2) := by decide
theorem test_decode_sub : decodeWord false 0b1000000100100101#16 = .ok (.subVV 0x1 0x2) := by decide
theorem test_decode_shr : decodeWord false 0b1000000100100110#16 = .ok (.shrVV 0x1 0x2) := by decide
theorem test_decode_subn : decodeWord false 0b1000000100100111#16 = .ok (.subnVV 0x1 0x2) := by decide
theorem test_decode_shl : decodeWord false 0b1000000100101110#16 = .ok (.shlVV 0x1 0x2) := by decide
theorem test_decode_sneVV : decodeWord false 0b1001000100100000#16 = .ok (.sneVV 0x1 0x2) := by decide
theorem test_decode_ldI : decodeWord false 0b1010001000001110#16 = .ok (.ldI 0x20E) := by decide
theorem test_decode_jpV0 : decodeWord false 0b1011001100100000#16 = .ok (.jpV0 0x320) := by decide
theorem test_decode_rnd : decodeWord false 0b1100001000001111#16 = .ok (.rnd 0x2 0x0F) := by decide
theorem test_decode_drw : decodeWord false 0b1101000100100101#16 = .ok (.drw 0x1 0x2 0x5) := by decide
theorem test_decode_skp : decodeWord true 0b1110010110011110#16 = .ok (.skp 0x5) := by decide
theorem test_decode_sknp : decodeWord true 0b1110010110100001#16 = .ok (.sknp 0x5) := by decide

/-- The illegal words of 95_test_vectors.md §2.1 under KEY_SKIPS = false. -/
theorem test_decode_illegal :
    [0x0000#16, 0x0123#16, 0x00E1#16, 0x00FF#16, 0x5121#16, 0x912F#16, 0x8128#16, 0x812C#16, 0x812F#16, 0xE19E#16,
      0xE1A2#16, 0xF107#16, 0xF10A#16, 0xF155#16, 0xFFFF#16].all (fun w => !(decodeWord false w).isOk) = true := by
  decide

/-- 0xE1A2 is illegal in every configuration. -/
theorem test_decode_illegal_key : decodeWord true 0xE1A2#16 = .error .familyE := by decide

/-- Too few bytes, and bytes left over. -/
theorem test_decode_truncated : decodeBytes false [0x12#8] = .error .truncated := by decide
theorem test_decode_rest : decodeBytes false [0x12#8, 0x34#8, 0x56#8] = .ok (.jp 0x234, [0x56#8]) := by decide

/-- The opcode table's numbering: RET, and SKP V5. -/
theorem test_table_word_ret : decodeTableWord 16 0x00EE = some .ret := by decide
theorem test_table_word_skp : decodeTableWord 16 0xE59E = some (.skp 0x5) := by decide

/-- The assembler syntax of R83. -/
theorem test_assembly_drw : Instr.assembly (.drw 0x1 0xF 0x5) = "DRW V1, VF, 0x5" := by decide
theorem test_assembly_jpV0 : Instr.assembly (.jpV0 0x30A) = "JP V0, 0x30A" := by decide

/-! ### Fetch (95_test_vectors.md F-2, F-4, F-5, F-6) -/

theorem test_fetch_past_end : (after { st 0 with pc := 0x0FFE, mem := [(0xFFE, 0x60), (0xFFF, 0x11)] }).map
    (fun t => (t.reg 0, t.pc)) = some (0x11, 0x1000) := by decide
theorem test_fetch_wraps : (after { st 0 with pc := 0x0FFF, mem := [(0x000, 0xE0)] }).map
    (fun t => (t.redraws, t.pc)) = some (1, 0x1001) := by decide
theorem test_fetch_pc_wraps : (after { st 0 with pc := 0xFFFE, mem := [(0xFFE, 0x60), (0xFFF, 0x07)] }).map
    (fun t => (t.reg 0, t.pc)) = some (0x07, 0x0000) := by decide
theorem test_fetch_odd : (after { st 0 with pc := 0x0201, mem := [(0x201, 0x6A), (0x202, 0x05)] }).map
    (fun t => (t.reg 0xA, t.pc)) = some (0x05, 0x0203) := by decide

/-- An illegal word: pc = address + 2 and the latch (R206); the next step has no transition (R207). -/
theorem test_illegal_raises : (after (st 0xF107)).map (fun t => (t.pc, t.fault)) =
    some (0x0202, some .illegalInstruction) := by decide
theorem test_halted_stops : stops { st 0x00E0 with fault := some .illegalInstruction } = true := by decide

/-! ### Placing a word: every optional row runs as the first instruction after reset -/

theorem test_place_jp : (after (State.reset.withFetchWord 16 0x1ABC)).map (fun t => t.pc) = some 0x0ABC := by decide
theorem test_place_skp : (after { State.reset.withFetchWord 16 0xE59E with keyIn := [none] }).map
    (fun t => (t.pc, t.fault)) = some (0x0202, none) := by decide

/-! ### Control transfer (95_test_vectors.md C-1 to C-25) -/

theorem test_jp : (after (st 0x1ABC)).map (fun t => t.pc) = some 0x0ABC := by decide
theorem test_call : (after (st 0x2ABC)).map (fun t => (t.pc, t.sp, t.stack[0]?)) =
    some (0x0ABC, 1, some 0x0202) := by decide
theorem test_call_full : (after { st 0x2400 with sp := 16 }).map (fun t => (t.pc, t.sp, t.fault)) =
    some (0x0202, 16, some .stackOverflow) := by decide
theorem test_ret : (after { st 0x00EE with sp := 1, stack := State.reset.stack.set 0 0x0246 }).map
    (fun t => (t.pc, t.sp, t.fault)) = some (0x0246, 0, none) := by decide
theorem test_ret_empty : (after (st 0x00EE)).map (fun t => (t.pc, t.sp, t.fault)) =
    some (0x0202, 0, some .stackUnderflow) := by decide
theorem test_seVB_taken : (after ((st 0x3A2A).setReg 0xA 0x2A)).map (fun t => t.pc) = some 0x0204 := by decide
theorem test_seVB_not : (after ((st 0x3A2A).setReg 0xA 0x2B)).map (fun t => t.pc) = some 0x0202 := by decide
theorem test_sneVB_taken : (after ((st 0x4A2A).setReg 0xA 0x2B)).map (fun t => t.pc) = some 0x0204 := by decide
theorem test_sneVB_not : (after ((st 0x4A2A).setReg 0xA 0x2A)).map (fun t => t.pc) = some 0x0202 := by decide
theorem test_seVV_taken : (after (st 0x5AB0)).map (fun t => t.pc) = some 0x0204 := by decide
theorem test_seVV_not : (after ((st 0x5AB0).setReg 0xB 1)).map (fun t => t.pc) = some 0x0202 := by decide
theorem test_sneVV_taken : (after (((st 0x9AB0).setReg 0xA 1).setReg 0xB 2)).map (fun t => t.pc) =
    some 0x0204 := by decide
theorem test_sneVV_same : (after ((st 0x9AA0).setReg 0xA 7)).map (fun t => t.pc) = some 0x0202 := by decide
theorem test_jpV0_legacy : (after ((st 0xBFFF).setReg 0 0xFF)).map (fun t => t.pc) = some 0x10FE := by decide
theorem test_jpV0_shifted : (after (shifted (((st 0xB320).setReg 3 0x10).setReg 0 0x77))).map (fun t => t.pc) =
    some 0x0030 := by decide
theorem test_skp_taken : (after (keyed (some 0xA) ((st 0xE59E).setReg 5 0x0A))).map (fun t => t.pc) =
    some 0x0204 := by decide
theorem test_skp_wide : (after (keyed (some 0xA) ((st 0xE59E).setReg 5 0x1A))).map (fun t => t.pc) =
    some 0x0202 := by decide
theorem test_sknp_none : (after (keyed none ((st 0xE5A1).setReg 5 0x0A))).map (fun t => t.pc) =
    some 0x0204 := by decide
theorem test_sknp_pressed : (after (keyed (some 0xA) ((st 0xE5A1).setReg 5 0x0A))).map (fun t => t.pc) =
    some 0x0202 := by decide

/-! ### ALU (95_test_vectors.md A-2 to A-38) -/

theorem test_ldVB_vf : (after (st 0x6FAB)).map (fun t => t.reg vf) = some 0xAB := by decide
theorem test_addVB_no_carry : (after (((st 0x74FF).setReg 4 0x01).setReg vf 0x07)).map
    (fun t => (t.reg 4, t.reg vf)) = some (0x00, 0x07) := by decide
theorem test_ldVV : (after (st12 0x8120 0 0x5A 0)).map (fun t => (t.reg 1, t.reg 2)) = some (0x5A, 0x5A) := by decide
theorem test_or : (after (st12 0x8121 0xF0 0x0F 0x09)).map (fun t => (t.reg 1, t.reg vf)) =
    some (0xFF, 0x09) := by decide
theorem test_and : (after (st12 0x8122 0xF0 0x3C 0)).map (fun t => t.reg 1) = some 0x30 := by decide
theorem test_xor : (after (st12 0x8123 0xFF 0x0F 0)).map (fun t => t.reg 1) = some 0xF0 := by decide
theorem test_add_wraps : (after (st12 0x8124 0xFF 0x01 0)).map (fun t => (t.reg 1, t.reg vf)) =
    some (0x00, 0x01) := by decide
theorem test_add_into_vf : (after (st12 0x8F14 0xF5 0 0x10)).map (fun t => t.reg vf) = some 0x01 := by decide
theorem test_sub_borrow : (after (st12 0x8125 0x03 0x05 0)).map (fun t => (t.reg 1, t.reg vf)) =
    some (0xFE, 0x00) := by decide
theorem test_sub_equal : (after (st12 0x8125 0x07 0x07 0)).map (fun t => (t.reg 1, t.reg vf)) =
    some (0x00, 0x01) := by decide
theorem test_subn : (after (st12 0x8127 0x03 0x05 0)).map (fun t => (t.reg 1, t.reg vf)) =
    some (0x02, 0x01) := by decide
theorem test_subn_borrow : (after (st12 0x8127 0x05 0x03 0)).map (fun t => (t.reg 1, t.reg vf)) =
    some (0xFE, 0x00) := by decide
theorem test_shr_legacy : (after (st12 0x8126 0xAA 0x83 0)).map (fun t => (t.reg 1, t.reg 2, t.reg vf)) =
    some (0x41, 0x83, 0x01) := by decide
theorem test_shr_shifted : (after (shifted (st12 0x8126 0x83 0x00 0))).map (fun t => (t.reg 1, t.reg vf)) =
    some (0x41, 0x01) := by decide
theorem test_shl_legacy : (after (st12 0x812E 0xFF 0x01 0)).map (fun t => (t.reg 1, t.reg vf)) =
    some (0x02, 0x00) := by decide
theorem test_shl_vf : (after (shifted ((st 0x8FFE).setReg vf 0x80))).map (fun t => t.reg vf) = some 0x01 := by decide
theorem test_rnd_masked : (after { st 0xC20F with randIn := [0xAB] }).map (fun t => (t.reg 2, t.randDraws)) =
    some (0x0B, 1) := by decide

/-! ### Index and display (95_test_vectors.md I-2, CLS-1, DRW-1 to DRW-11) -/

theorem test_ldI : (after (st 0xAFFF)).map (fun t => t.i) = some 0x0FFF := by decide
theorem test_cls : (after { (st 0x00E0).setReg vf 0x33 with fb := fbFill Config.base true, redraws := 4 }).map
    (fun t => (t.pixel 0 0, t.pixel 31 63, t.redraws, t.reg vf)) = some (false, false, 5, 0x33) := by decide

/-- DRW's pixels. DRW-1 and DRW-2: the row below the grid is skipped under CLIP and wraps under WRAP. DRW-3: columns
wrap in every mode. -/
theorem test_drw_pixels :
    (after (sprite 0xD012 0x80 0x80 0 31)).map (fun t => (t.pixel 31 0, t.pixel 0 0, t.reg vf, t.redraws)) =
      some (true, false, 0, 1) ∧
    (after (wrapped (sprite 0xD012 0x80 0x80 0 31))).map (fun t => (t.pixel 31 0, t.pixel 0 0)) = some (true, true) ∧
    (after (sprite 0xD011 0xFF 0 63 0)).map (fun t => (t.pixel 0 63, t.pixel 0 0, t.pixel 0 6, t.pixel 0 7)) =
      some (true, true, true, false) := by decide

/-- DRW's flag. DRW-8 and DRW-9: its two readings. DRW-11: a coordinate in VF is read before VF is cleared. R177, by
hand: on a grid 4 wide, bit 4 of 0x88 falls on the pixel bit 0 has lit, turns it off and collides. -/
theorem test_drw_flag :
    (after (orMode { (sprite 0xD011 0x80 0 0 0).setReg vf 0x42 with fb := fbSet State.reset.fb 0 0 true })).map
      (fun t => (t.pixel 0 0, t.reg vf)) = some (false, 0x43) ∧
    (after { (sprite 0xD011 0x80 0 0 0).setReg vf 0x42 with fb := fbSet State.reset.fb 0 0 true }).map
      (fun t => (t.pixel 0 0, t.reg vf)) = some (false, 0x01) ∧
    (after ((sprite 0xDF11 0x80 0 0 0).setReg vf 0x05)).map (fun t => (t.pixel 0 5, t.reg vf)) = some (true, 0x00) ∧
    (after (narrow (sprite 0xD011 0x88 0 0 0))).map (fun t => (t.pixel 0 0, t.reg vf)) = some (false, 0x01) := by decide

/-! ### Timers (95_test_vectors.md T-2 to T-4) -/

theorem test_tick_stops : (tick { State.reset with dt := 1, st := 0 }).outputs.tone = false := by decide
theorem test_tick : ((tick { State.reset with dt := 255, st := 2 }).dt, (tick { State.reset with dt := 255, st := 2 }).st) =
    (254#8, 1#8) := by decide
theorem test_terminate : (match runEvents [.terminate, .step] { State.reset with fault := some .outOfBounds } with
    | .next t => t.fault
    | .fault _ => none
    | .refused _ => none) = some .outOfBounds := by decide

/-- After termination a tick counts and a step is not taken (R225; log entry 21). -/
theorem test_terminate_tick : runEvents [.terminate, .step, .tick] { st 0x1ABC with dt := 2, st := 1 } =
    .next { st 0x1ABC with dt := 1, st := 0 } := rfl

/-! ### Construction (95_test_vectors.md K-6, and a small image) -/

theorem test_construct : (match construct { ConstructInputs.base with font := [0xF0, 0x90], program := [0x12, 0x00] } with
    | .ok s => some (Memory.read2 s.mem 0x050, s.fetchWord, s.pc)
    | .error _ => none) = some (0xF090, 0x1200, 0x0200) := by decide

/-! ### Witnesses: the hypotheses of each statement can be met together -/

theorem witness_DecodeOfEncodeIsIdentity : Instr.wf false (.drw 0xF 0xF 0xF) = true ∧ Instr.wf true (.sknp 0xF) = true := by
  decide
theorem witness_DecodedWordIsTheEncoding : decodeWord false 0xDFFF#16 = .ok (.drw 0xF 0xF 0xF) := by decide

/-- One illegal word at the edge of each bullet of R78. -/
theorem witness_IllegalWords : IllegalWord false 0x00E1 ∧ IllegalWord false 0x5121 ∧ IllegalWord false 0x912F ∧
    IllegalWord false 0x8128 ∧ IllegalWord false 0x812F ∧ IllegalWord false 0xE19E ∧ IllegalWord true 0xE1A2 ∧
    IllegalWord true 0xF000 ∧ ¬ IllegalWord true 0xE19E ∧ ¬ IllegalWord false 0x812E := by
  unfold IllegalWord
  refine ⟨?_, ?_, ?_, ?_, ?_, ?_, ?_, ?_, ?_, ?_⟩ <;> decide
theorem witness_IllegalWordsAreThoseListedAndRaise : (st 0xF107).fault = none ∧
    IllegalWord (st 0xF107).cfg.keySkips (st 0xF107).fetchWord := by
  unfold IllegalWord; decide
theorem witness_WordReadIsBigEndianModulo4096 : 0x1FFF % 4096 = 0xFFF := by decide
theorem witness_StepRunsTheDecodedInstruction : (st 0x1ABC).fault = none ∧
    decodeWord (st 0x1ABC).cfg.keySkips
      (Memory.read (st 0x1ABC).mem (st 0x1ABC).pc.toNat ++ Memory.read (st 0x1ABC).mem ((st 0x1ABC).pc.toNat + 1)) =
      .ok (.jp 0xABC) := by decide
theorem witness_StepRunsTheDecodedInstruction_illegal : State.reset.fault = none ∧
    decodeWord State.reset.cfg.keySkips
      (Memory.read State.reset.mem State.reset.pc.toNat ++ Memory.read State.reset.mem (State.reset.pc.toNat + 1)) =
      .error .family0 := by decide
theorem witness_HaltedCoreHasNoStep : { st 0 with fault := some ErrorKind.stackOverflow }.fault =
    some .stackOverflow := by decide
theorem witness_EveryInstructionCompletesOrRaisesAStackError :
    ({ State.reset with sp := 16 } : State).wf = true ∧ ({ State.reset with sp := 16 } : State).fault = none ∧
    State.reset.wf = true ∧ State.reset.sp = 0 := by decide
theorem witness_RaisedErrorsArePrecise : State.reset.wf = true ∧ State.reset.fault = none ∧
    step State.reset = .next { State.reset with pc := 0x0202, fault := some .illegalInstruction } :=
  ⟨by decide, rfl, rfl⟩
theorem witness_PlacedInstructionIsTheNextRun : Memory.wf (st 0x1234).mem = true := by decide
theorem witness_RetPopsOrUnderflows : ({ st 0 with sp := 15 + 1 } : State).stack[15]? = some 0x0000 ∧
    (st 0).sp = 0 := by decide
theorem witness_CallPushesOrOverflows :
    ({ st 0 with sp := 15 } : State).wf = true ∧ ({ st 0 with sp := 15 } : State).sp < Config.base.stackDepth ∧
    ({ st 0 with sp := 16 } : State).wf = true ∧ ({ st 0 with sp := 16 } : State).sp = Config.base.stackDepth := by decide
theorem witness_CallThenRetReturns : ({ st 0 with sp := 15 } : State).wf = true ∧
    ({ st 0 with sp := 15 } : State).sp < ({ st 0 with sp := 15 } : State).cfg.stackDepth := by decide
theorem witness_SelfCallOverflowsWhenFull : (st 0x2200).wf = true ∧ (st 0x2200).fault = none ∧ (st 0x2200).sp = 0 ∧
    (st 0x2200).pc = (0x200#12).setWidth 16 ∧ (st 0x2200).fetched = .ok (.call 0x200) := by decide
theorem witness_SkipPassesOneInstruction : (st 0x3A2A).fault = none ∧ (st 0x3A2A).fetched = .ok (.seVB 0xA 0x2A) ∧
    (st 0x4A2A).fetched = .ok (.sneVB 0xA 0x2A) ∧ (st 0x5AB0).fetched = .ok (.seVV 0xA 0xB) ∧
    (st 0x9AB0).fetched = .ok (.sneVV 0xA 0xB) ∧ (keyed none (st 0xE59E)).fetched = .ok (.skp 0x5) ∧
    (keyed none (st 0xE5A1)).fetched = .ok (.sknp 0x5) ∧ (keyed none (st 0xE5A1)).fault = none := by decide
theorem witness_JumpWithOffsetTargets : (st 0xBFFF).cfg.shiftJumpMode = .legacy ∧
    (shifted (st 0xBFFF)).cfg.shiftJumpMode = .shifted := by decide
theorem witness_KeySkipsPollOnce : (keyed (some 0xF) (st 0xE59E)).keyIn = some 0xF :: [] := by decide
theorem witness_RegisterNotVf : (0xE#4 : RegIdx) ≠ vf ∧ (0x0#4 : RegIdx) ≠ vf := by decide
theorem witness_ShiftsWriteResultAndBitOut :
    (0x83#8 : Byte) = (if (st12 0 0xAA 0x83 0).cfg.shiftJumpMode = .legacy then (st12 0 0xAA 0x83 0).reg 2
      else (st12 0 0xAA 0x83 0).reg 1) ∧
    (0xAA#8 : Byte) = (if (shifted (st12 0 0xAA 0x83 0)).cfg.shiftJumpMode = .legacy then
      (shifted (st12 0 0xAA 0x83 0)).reg 2 else (shifted (st12 0 0xAA 0x83 0)).reg 1) := by decide
theorem witness_ResultThenFlagFromOldOperands : (0x10#8 : Byte) = (st12 0 0xF5 0 0x10).reg vf ∧
    (0xF5#8 : Byte) = (st12 0 0xF5 0 0x10).reg 1 ∧ (0xF5#8 : Byte) = shiftSource vf 1 (st12 0 0xF5 0 0x10) := by decide
theorem witness_AluFlagsAreZeroOrOne : Instr.shlVV 1 2 ∈
    [Instr.addVV 1 2, .subVV 1 2, .subnVV 1 2, .shrVV 1 2, .shlVV 1 2] := by decide
theorem witness_RandomIsMaskedDraw : ({ st 0xC20F with randIn := [0xAB] } : State).randIn = 0xAB :: [] := by decide
theorem witness_ClearIsThePixelWriteLoop : (st 0x00E0).wf = true := by decide
theorem witness_DrawCoordinatesStayInGrid : Config.base.wf = true ∧ Config.base.vwrapMode = .clip ∧
    31 + 0 < Config.base.gridH ∧ Config.base.gridH ≤ 31 + 1 ∧ drawRowOf Config.base 31 0 = some 31 ∧
    ({ Config.base with vwrapMode := .wrap } : Config).wf = true := by decide
theorem witness_DrawRequestsOneRedraw : (sprite 0xD012 0x80 0x80 0 31).wf = true := by decide
theorem witness_DrawOfNoRows : (st 0xD010).cfg.drwVfMode = .clearThenOr ∧
    (orMode (st 0xD010)).cfg.drwVfMode = .orIntoOld := by decide
theorem witness_DrawXorsEverySpriteBit : (sprite 0xD012 0x80 0x80 0 31).wf = true ∧
    31 < (sprite 0xD012 0x80 0x80 0 31).cfg.gridH ∧ 63 < (sprite 0xD012 0x80 0x80 0 31).cfg.gridW := by decide
theorem witness_DrawFlipsEachPixelOnce : (sprite 0xD012 0x80 0x80 0 31).wf = true ∧ NoSelfOverlap Config.base 15 ∧
    NoSelfOverlap { Config.base with vwrapMode := .wrap } 15 ∧ 0 < 2 ∧ 7 < 8 ∧
    drawRowOf (sprite 0xD012 0x80 0x80 0 31).cfg 31 0 = some 31 := by
  unfold NoSelfOverlap; decide
theorem witness_DrawFlagIsTheCollision_collides :
    Collides { sprite 0xD011 0x80 0 0 0 with fb := fbSet State.reset.fb 0 0 true } 0 0 0x300 1 :=
  ⟨0, by decide, 0, by decide, 0, by decide, by decide, by decide⟩
theorem witness_DrawFlagIsTheCollision_overlap :
    (narrow (sprite 0xD011 0x88 0 0 0)).wf = true ∧ CollidesInOrder (narrow (sprite 0xD011 0x88 0 0 0)) 0 0 0x300 1 ∧
      ¬ Collides (narrow (sprite 0xD011 0x88 0 0 0)) 0 0 0x300 1 := by
  refine ⟨by decide, ⟨0, by decide, 0, by decide, 4, by decide, by decide, by decide⟩, ?_⟩
  rintro ⟨r, hr, row, hrow, b, hb, -, hp⟩
  obtain rfl : r = 0 := by omega
  have h0 : drawRowOf (narrow (sprite 0xD011 0x88 0 0 0)).cfg 0 0 = some 0 := by decide
  rw [h0] at hrow
  cases hrow
  revert hp
  decide +revert
theorem witness_DrawFlagIsTheCollision_plain : (sprite 0xD011 0x80 0 0 0).wf = true ∧
    NoSelfOverlap (sprite 0xD011 0x80 0 0 0).cfg 1 := by unfold NoSelfOverlap; decide
theorem witness_DrawFlagIsTheCollision_none : ¬ Collides (sprite 0xD011 0x80 0 0 0) 0 0 0x300 0 := by
  rintro ⟨r, hr, -⟩; exact absurd hr (Nat.not_lt_zero r)
theorem witness_DoubleDrawRestoresThePixels : ∃ t u, (sprite 0xD011 0x80 0 0 0).wf = true ∧
    exec (.drw 0 1 1) (sprite 0xD011 0x80 0 0 0) = .next t ∧ exec (.drw 0 1 1) t = .next u ∧
    t.cfg = (sprite 0xD011 0x80 0 0 0).cfg ∧ t.mem = (sprite 0xD011 0x80 0 0 0).mem ∧
    t.i = (sprite 0xD011 0x80 0 0 0).i ∧ t.reg 0 = (sprite 0xD011 0x80 0 0 0).reg 0 ∧
    t.reg 1 = (sprite 0xD011 0x80 0 0 0).reg 1 :=
  ⟨_, _, by decide, rfl, rfl, rfl, rfl, rfl, rfl, rfl⟩
theorem witness_SecondDrawFlag : ∃ t u, (sprite 0xD011 0x80 0 0 0).wf = true ∧
    NoSelfOverlap (sprite 0xD011 0x80 0 0 0).cfg 1 ∧ (sprite 0xD011 0x80 0 0 0).cfg.drwVfMode = .clearThenOr ∧
    (0x0#4 : RegIdx) ≠ vf ∧ (0x1#4 : RegIdx) ≠ vf ∧ exec (.drw 0 1 1) (sprite 0xD011 0x80 0 0 0) = .next t ∧
    exec (.drw 0 1 1) t = .next u :=
  ⟨_, _, by decide, by unfold NoSelfOverlap; decide, rfl, by decide, by decide, rfl, rfl⟩
theorem witness_PixelCallsCheckTheGrid : (st 0).wf = true ∧ (31 < (st 0).cfg.gridH ∧ 63 < (st 0).cfg.gridW) ∧
    ¬ (32 < (st 0).cfg.gridH ∧ 63 < (st 0).cfg.gridW) ∧ ¬ (31 < (st 0).cfg.gridH ∧ 64 < (st 0).cfg.gridW) := by decide
theorem witness_RegistersChangeOnlyAsNamed : ∃ t, exec (.addVV 1 2) (st12 0 1 2 3) = .next t ∧
    destReg (.addVV 1 2) ≠ some 3 ∧ ((3#4 : RegIdx) = vf → writesFlag (.addVV 1 2) = false) :=
  ⟨_, rfl, by decide, by decide⟩
theorem witness_StateIsWrittenOnlyByItsWriters : ∃ t, exec (.ldVB 1 2) (st 0) = .next t ∧
    usesStack (.ldVB 1 2) = false ∧ usesDisplay (.ldVB 1 2) = false ∧ takesDraw (.ldVB 1 2) = false ∧
    transfersControl (.ldVB 1 2) = false := ⟨_, rfl, rfl, rfl, rfl, rfl⟩
theorem witness_MemoryAndConfigurationAreConstant : ∃ t, runEvents [.tick, .step, .terminate] (st 0x1ABC) = .next t :=
  ⟨_, rfl⟩
theorem witness_CompatibilityModesAreContained :
    readsShiftMode (.drw 0 1 2) = false ∧ VwrapMode.clip = (st 0).cfg.vwrapMode ∧
    readsWrapMode (.shrVV 0 1) = false ∧ ShiftJumpMode.legacy = (st 0).cfg.shiftJumpMode ∧
    readsShiftMode (.addVV 0 1) = false ∧ readsWrapMode (.addVV 0 1) = false := by decide
theorem witness_OtherInstructionsIgnoreTheDraws : takesDraw (.drw 0 1 2) = false := by decide
theorem witness_EveryStepKeepsTheInvariant : ∃ t, (st 0x1ABC).wf = true ∧ step (st 0x1ABC) = .next t :=
  ⟨_, by decide, rfl⟩
theorem witness_IndexStaysInTwelveBits : ∃ t, ({ st 0xAFFF with i := 0x0FFF } : State).indexBounded = true ∧
    step { st 0xAFFF with i := 0x0FFF } = .next t := ⟨_, by decide, rfl⟩
theorem witness_IdleLoopChangesNothing : (st 0x1200).fault = none ∧ (st 0x1200).idle :=
  ⟨rfl, 0x200, by decide, by decide⟩
theorem witness_TickPlacementIsIrrelevant : ∃ t, runEvents [.tick, .step, .tick, .terminate, .step, .tick] (st 0x1ABC) =
    .next t := ⟨_, rfl⟩
theorem witness_ConstructionChecksSizesInOrder : 3584 < (List.replicate 3585 0#8).length ∧
    (List.replicate 3584 0#8).length ≤ 3584 ∧ 432 < (List.replicate 433 0#8).length ∧
    (List.replicate 432 0#8).length ≤ 432 := by
  simp only [List.length_replicate]; decide
theorem witness_ConstructionLeavesTheImage : ∃ s, construct { ConstructInputs.base with font := [0xF0], program := [0x12] } =
    .ok s ∧ [0xF0#8][0]? = some 0xF0#8 ∧ [0x12#8][0]? = some 0x12#8 ∧ 0x051 < 4096 ∧ 0x050 + 1 ≤ 0x051 ∧ 0x051 < 0x200 :=
  ⟨_, rfl, by decide, by decide, by decide, by decide, by decide⟩
theorem witness_ConstructedMachineMeetsTheInvariant : ConstructInputs.base.wf = true ∧
    construct ConstructInputs.base = .ok State.reset := ⟨by decide, rfl⟩
theorem witness_PopReturnsWhatPushPut : ({ st 0 with sp := 15 } : State).wf = true ∧
    ({ st 0 with sp := 15 } : State).sp ≠ ({ st 0 with sp := 15 } : State).cfg.stackDepth ∧
    ({ st 0 with sp := 16 } : State).wf = true ∧ (st 0).sp = 0 := by decide
theorem witness_StepAnswersCarryTheCodes : (st 0).fault = none ∧
    ({ st 0 with fault := some .fontTooLarge } : State).fault = some .fontTooLarge := by decide

end Sys2Proof.Tests
end

section
/-!
SUPPORT. A change of the state that a run inside a step does not see goes through the run: whole folds and the end
of the step commute with it.
-/

namespace Sys2Proof.Machine

/-- A run with the state it has reached changed, whether it goes on or raises. -/
def mapRun (f : State → State) : Run → Run
  | .ok s => .ok (f s)
  | .error (e, s) => .error (e, f s)

/-- A fold of operations that each commute with a change of the state commutes with it. -/
theorem foldlM_mapRun {α : Type} {f : State → State} {op : State → α → Run}
    (hop : ∀ s a, op (f s) a = mapRun f (op s a)) (l : List α) : ∀ s : State,
    l.foldlM op (f s) = mapRun f (l.foldlM op s) := by
  induction l with
  | nil => intro s; rfl
  | cons a l ih =>
    intro s
    rw [List.foldlM_cons, List.foldlM_cons, hop]
    rcases op s a with ⟨e, t⟩ | t
    · rfl
    · exact ih t

/-- A change of the state commutes with a last update of the run's state, where the two commute. -/
theorem map_mapRun {f g : State → State} (hg : ∀ s, g (f s) = f (g s)) (r : Run) :
    (mapRun f r).map g = mapRun f (r.map g) := by
  rcases r with ⟨e, t⟩ | t
  · rfl
  · exact congrArg Except.ok (hg t)

/-- Ending a step commutes with a change of the state that leaves a raise's latch alone. -/
theorem finish_mapRun {f : State → State} (hf : ∀ e s, raise e (f s) = mapNext f (raise e s)) (r : Run) :
    finish (mapRun f r) = mapNext f (finish r) := by
  rcases r with ⟨e, t⟩ | t
  · exact hf e t
  · rfl

/-- DRW in any state: its rows, then the redraw unless a row raised, and the end of the step (R173, R175). -/
theorem execDrw_eq_finish (x y : RegIdx) (n : Nibble) (s : State) :
    execDrw x y n s = finish (Except.map redraw
      ((List.range n.toNat).foldlM (drawRow (s.reg x).toNat (s.reg y).toNat s.i.toNat) (drawStart s))) := by
  rw [execDrw]
  cases (List.range n.toNat).foldlM (drawRow (s.reg x).toNat (s.reg y).toNat s.i.toNat) (drawStart s) <;> rfl

end Sys2Proof.Machine
end

section
/-!
PROOF. The draw inputs and their counts are seen by RND, SKP and SKNP alone (R15, R145, R219): every other operation
commutes with changing them, DRW's loops in every state included.
-/

namespace Sys2Proof.Machine

section WithDraws

variable (ri : List Byte) (rd : Nat) (ki : List (Option Nibble)) (kd : Nat) (s : State)

@[simp] theorem withDraws_reg (r : RegIdx) : (s.withDraws ri rd ki kd).reg r = s.reg r := rfl
@[simp] theorem withDraws_pc : (s.withDraws ri rd ki kd).pc = s.pc := rfl
@[simp] theorem withDraws_i : (s.withDraws ri rd ki kd).i = s.i := rfl
@[simp] theorem withDraws_cfg : (s.withDraws ri rd ki kd).cfg = s.cfg := rfl

theorem redraw_withDraws : redraw (s.withDraws ri rd ki kd) = (redraw s).withDraws ri rd ki kd := rfl

theorem raise_withDraws (e : ErrorKind) :
    raise e (s.withDraws ri rd ki kd) = mapNext (State.withDraws ri rd ki kd) (raise e s) := rfl

theorem push_withDraws (a : Word) :
    push a (s.withDraws ri rd ki kd) = (push a s).map (State.withDraws ri rd ki kd) := by
  rcases push_cases a s with ⟨h, hp⟩ | ⟨h, hp⟩
  · rw [hp]; exact if_pos h
  · rw [hp]; exact if_neg h

theorem pop_withDraws :
    pop (s.withDraws ri rd ki kd) = (pop s).map (Prod.map id (State.withDraws ri rd ki kd)) := by
  rcases pop_cases s with ⟨h, hp⟩ | ⟨h, hp⟩
  · rw [hp]; exact if_pos h
  · rw [hp]; exact if_neg h

theorem execRet_withDraws :
    execRet (s.withDraws ri rd ki kd) = mapNext (State.withDraws ri rd ki kd) (execRet s) := by
  rw [execRet, pop_withDraws, execRet]
  cases pop s <;> rfl

theorem execCall_withDraws (nnn : Addr) :
    execCall nnn (s.withDraws ri rd ki kd) = mapNext (State.withDraws ri rd ki kd) (execCall nnn s) := by
  rw [execCall, withDraws_pc, push_withDraws, execCall]
  cases push s.pc s <;> rfl

theorem pixelRead_withDraws (row col : Nat) :
    pixelRead row col (s.withDraws ri rd ki kd) = pixelRead row col s := rfl

theorem pixelWrite_withDraws (row col : Nat) (b : Bool) :
    pixelWrite row col b (s.withDraws ri rd ki kd) =
      (pixelWrite row col b s).map (State.withDraws ri rd ki kd) := by
  rw [pixelWrite, pixelWrite, withDraws_cfg]
  cases inGrid s.cfg row col <;> rfl

/-- One pixel of DRW does not see the draw inputs, whether its coordinate is in the grid or not (R173, R203). -/
theorem drawPixel_withDraws (sprite : Byte) (row x0 b : Nat) :
    drawPixel sprite row x0 (s.withDraws ri rd ki kd) b =
      mapRun (State.withDraws ri rd ki kd) (drawPixel sprite row x0 s b) := by
  rw [drawPixel, drawPixel, withDraws_cfg, pixelRead_withDraws]
  rcases pixelRead row (drawColOf s.cfg x0 b) s with e | cur
  · rfl
  · simp only [pixelWrite_withDraws]
    cases pixelWrite row (drawColOf s.cfg x0 b) (cur ^^ spriteBit sprite b) s <;> rfl

/-- One sprite row of DRW does not see the draw inputs, whether CLIP skips it or not (R172, R173). -/
theorem drawRow_withDraws (x0 y0 base r : Nat) :
    drawRow x0 y0 base (s.withDraws ri rd ki kd) r =
      mapRun (State.withDraws ri rd ki kd) (drawRow x0 y0 base s r) := by
  rw [drawRow, drawRow, withDraws_cfg]
  cases drawRowOf s.cfg y0 r with
  | none => rfl
  | some row => exact foldlM_mapRun (fun s b => drawPixel_withDraws ri rd ki kd s _ row x0 b) _ s

theorem drawStart_withDraws :
    drawStart (s.withDraws ri rd ki kd) = (drawStart s).withDraws ri rd ki kd := by
  rw [drawStart, drawStart, withDraws_cfg]
  cases s.cfg.drwVfMode <;> rfl

/-- DRW does not see the draw inputs, in a legal configuration or not (R173). -/
theorem execDrw_withDraws (x y : RegIdx) (n : Nibble) :
    execDrw x y n (s.withDraws ri rd ki kd) = mapNext (State.withDraws ri rd ki kd) (execDrw x y n s) := by
  rw [execDrw_eq_finish, execDrw_eq_finish, withDraws_reg, withDraws_reg, withDraws_i, drawStart_withDraws,
    foldlM_mapRun fun t r => drawRow_withDraws ri rd ki kd t _ _ _ r, map_mapRun (redraw_withDraws ri rd ki kd)]
  exact finish_mapRun (fun e t => raise_withDraws ri rd ki kd t e) _

end WithDraws

/-- Settles O46: RET and CALL through the stack operations, DRW through its loops; every other instruction that takes
no draw is one update of fields that the draw inputs are not among. -/
theorem otherInstructionsIgnoreTheDraws : Obligations.OtherInstructionsIgnoreTheDraws := by
  intro i s ri rd ki kd hdraw
  cases i with
  | rnd | skp | sknp => cases hdraw
  | ret => exact execRet_withDraws ri rd ki kd s
  | call nnn => exact execCall_withDraws ri rd ki kd s nnn
  | drw x y n => exact execDrw_withDraws ri rd ki kd s x y n
  | _ => rfl

end Sys2Proof.Machine
end

section
/-!
SUPPORT. What each instruction can write, said once per piece of state (10_state.md R21, R39; 20_memory.md R56). Only
RET, CALL and DRW have cases of their own; every other instruction is one update of the fields it names.
-/

namespace Sys2Proof.Machine

variable {i : Instr} {s t : State}

/-- Equal memories read equal at every address (R52). -/
theorem sameMemory_of_mem_eq (h : t.mem = s.mem) : SameMemory s t := fun a => congrArg (Memory.read · a) h

/-- RET writes pc, the stack depth and the latch (R103, R201). -/
theorem execRet_frame (h : execRet s = .next t) : t = { s with pc := t.pc, sp := t.sp, fault := t.fault } := by
  rcases execRet_cases s with ⟨-, he⟩ | ⟨-, he⟩ <;> · rw [he] at h; cases h; rfl

/-- CALL writes pc, the stack with its depth and the latch (R105, R202). -/
theorem execCall_frame {nnn : Addr} (h : execCall nnn s = .next t) :
    t = { s with pc := t.pc, stack := t.stack, sp := t.sp, fault := t.fault } := by
  rcases execCall_cases nnn s with ⟨-, he⟩ | ⟨-, he⟩ <;> · rw [he] at h; cases h; rfl

/-- No instruction writes memory, the timers or the configuration (R39, R56, R29, R31). -/
theorem exec_constants (h : exec i s = .next t) :
    t.mem = s.mem ∧ t.dt = s.dt ∧ t.st = s.st ∧ t.cfg = s.cfg := by
  cases i with
  | ret => rw [execRet_frame h]; exact ⟨rfl, rfl, rfl, rfl⟩
  | call nnn => rw [execCall_frame h]; exact ⟨rfl, rfl, rfl, rfl⟩
  | drw x y n => rw [(execDrw_frame h).2]; exact ⟨rfl, rfl, rfl, rfl⟩
  | _ => cases h; exact ⟨rfl, rfl, rfl, rfl⟩

/-- I is written by LD I alone (R26, R170). -/
theorem exec_i (h : exec i s = .next t) (hi : ∀ nnn, i ≠ .ldI nnn) : t.i = s.i := by
  cases i with
  | ldI nnn => exact absurd rfl (hi nnn)
  | ret => rw [execRet_frame h]
  | call nnn => rw [execCall_frame h]
  | drw x y n => rw [(execDrw_frame h).2]
  | _ => cases h; rfl

/-- The stack array is written by CALL alone (R28). -/
theorem exec_stack (h : exec i s = .next t) (hi : ∀ nnn, i ≠ .call nnn) : t.stack = s.stack := by
  cases i with
  | call nnn => exact absurd rfl (hi nnn)
  | ret => rw [execRet_frame h]
  | drw x y n => rw [(execDrw_frame h).2]
  | _ => cases h; rfl

/-- The stack depth is written by RET and CALL alone (R27). -/
theorem exec_sp (h : exec i s = .next t) (hi : usesStack i = false) : t.sp = s.sp := by
  cases i with
  | ret | call => cases hi
  | drw x y n => rw [(execDrw_frame h).2]
  | _ => cases h; rfl

/-- The pixels and the redraw count are written by CLS and DRW alone (R33, R34). -/
theorem exec_display (h : exec i s = .next t) (hi : usesDisplay i = false) :
    t.fb = s.fb ∧ t.redraws = s.redraws := by
  cases i with
  | cls | drw => cases hi
  | ret => rw [execRet_frame h]; exact ⟨rfl, rfl⟩
  | call nnn => rw [execCall_frame h]; exact ⟨rfl, rfl⟩
  | _ => cases h; exact ⟨rfl, rfl⟩

/-- The draw records are written by RND, SKP and SKNP alone (R145, R219). -/
theorem exec_draws (h : exec i s = .next t) (hi : takesDraw i = false) :
    t.randIn = s.randIn ∧ t.randDraws = s.randDraws ∧ t.keyIn = s.keyIn ∧ t.keyDraws = s.keyDraws := by
  cases i with
  | rnd | skp | sknp => cases hi
  | ret => rw [execRet_frame h]; exact ⟨rfl, rfl, rfl, rfl⟩
  | call nnn => rw [execCall_frame h]; exact ⟨rfl, rfl, rfl, rfl⟩
  | drw x y n => rw [(execDrw_frame h).2]; exact ⟨rfl, rfl, rfl, rfl⟩
  | _ => cases h; exact ⟨rfl, rfl, rfl, rfl⟩

/-- pc is written by the control transfers alone (R113). -/
theorem exec_pc (h : exec i s = .next t) (hi : transfersControl i = false) : t.pc = s.pc := by
  cases i with
  | ret | call | jp | jpV0 | seVB | sneVB | seVV | sneVV | skp | sknp => cases hi
  | drw x y n => rw [(execDrw_frame h).2]
  | _ => cases h; rfl

/-- A result and then a flag (R141): a register that is neither Vx nor VF is as before. -/
theorem writeResultFlag_reg_ne (s : State) {x r : RegIdx} (a f : Byte) (hx : r ≠ x) (hvf : r ≠ vf) :
    (writeResultFlag x a f s).reg r = s.reg r := by
  rw [writeResultFlag_reg s a f hvf, if_neg hx]

end Sys2Proof.Machine
end

section
/-!
PROOF. Invariants of the step: what the advance, a raise and every instruction keep, every step keeps. The machine's
invariant (R27, R33, R56, R7) and the bound on I (R26) both follow from it.
-/

namespace Sys2Proof.Machine

/-- What the fetch advance, the raise of an error and every instruction keep, a step keeps (R100). -/
theorem step_keeps {P : State → Prop} (hadvance : ∀ s, P s → P s.advance)
    (hraise : ∀ s e, P s → P { s with fault := some e })
    (hexec : ∀ i s t, P s → exec i s = .next t → P t)
    {s t : State} (hs : P s) (h : step s = .next t) : P t := by
  rcases step_cases s with ⟨e, -, he⟩ | ⟨i, -, -, he⟩ | ⟨e, -, -, he⟩ <;> rw [he] at h
  · cases h
  · exact hexec i _ t (hadvance s hs) h
  · cases h
    exact hraise _ _ (hadvance s hs)

/-- The invariant after an update of pc, the stack and the latch: the array keeps its length, the depth its range. -/
theorem wf_withStack {s : State} (hs : s.wf = true) (pc : Word) {stack : List Word} {sp : Nat}
    (hlen : stack.length = s.stack.length) (hsp : sp ≤ s.cfg.stackDepth) :
    ({ s with pc := pc, stack := stack, sp := sp } : State).wf = true := by
  obtain ⟨hcfg, hstack, -, hmem, hfb⟩ := (State.wf_iff s).1 hs
  exact (State.wf_iff _).2 ⟨hcfg, hlen.trans hstack, hsp, hmem, hfb⟩

/-- The invariant after an update of what drawing writes: the framebuffer keeps its shape (R33). -/
theorem wf_withDisplay {s : State} (hs : s.wf = true) (v : Vector Byte 16) {fb : Framebuffer} (redraws : Nat)
    (fault : Option ErrorKind) (hshape : fbShape s.cfg fb = true) :
    ({ s with v := v, fb := fb, redraws := redraws, fault := fault } : State).wf = true := by
  obtain ⟨hcfg, hstack, hsp, hmem, -⟩ := (State.wf_iff s).1 hs
  exact (State.wf_iff _).2 ⟨hcfg, hstack, hsp, hmem, hshape⟩

/-- RET keeps the invariant: a depth that is not 0 goes down (R103). -/
theorem execRet_keeps_wf {s t : State} (hs : s.wf = true) (h : execRet s = .next t) : t.wf = true := by
  obtain ⟨-, -, hsp, -, -⟩ := (State.wf_iff s).1 hs
  rcases execRet_cases s with ⟨-, he⟩ | ⟨-, he⟩ <;> rw [he] at h <;> cases h
  · exact hs
  · exact wf_withStack hs _ rfl (by omega)

/-- CALL keeps the invariant: a depth that is not STACK_DEPTH goes up, and one entry is replaced (R105). -/
theorem execCall_keeps_wf {nnn : Addr} {s t : State} (hs : s.wf = true) (h : execCall nnn s = .next t) :
    t.wf = true := by
  obtain ⟨-, -, hsp, -, -⟩ := (State.wf_iff s).1 hs
  rcases execCall_cases nnn s with ⟨-, he⟩ | ⟨hfull, he⟩ <;> rw [he] at h <;> cases h
  · exact hs
  · exact wf_withStack hs _ List.length_set (by omega)

/-- DRW leaves a framebuffer of the grid's shape (R33, R173). -/
theorem execDrw_shape {x y : RegIdx} {n : Nibble} {s t : State} (hs : s.wf = true)
    (h : execDrw x y n s = .next t) : fbShape s.cfg t.fb = true := by
  obtain ⟨hcfg, -, -, -, hfb⟩ := (State.wf_iff s).1 hs
  have hstart : (drawStart s).cfg = s.cfg ∧ (drawStart s).fb = s.fb := by rw [drawStart_eq]; exact ⟨rfl, rfl⟩
  rw [execDrw_eq x y n hcfg] at h
  cases h
  rw [redraw_fb, ← hstart.1]
  exact foldl_drawEvent_shape _ _ (by rw [hstart.1, hstart.2]; exact hfb)

/-- Every instruction keeps the machine's invariant. -/
theorem exec_keeps_wf (i : Instr) (s t : State) (hs : s.wf = true) (h : exec i s = .next t) : t.wf = true := by
  cases i with
  | ret => exact execRet_keeps_wf hs h
  | call nnn => exact execCall_keeps_wf hs h
  | cls => cases h; exact wf_withDisplay hs _ _ _ (fbFill_shape _ _)
  | drw x y n => rw [(execDrw_frame h).2]; exact wf_withDisplay hs _ _ _ (execDrw_shape hs h)
  | _ => cases h; exact hs

/-- Settles O47: the advance, a raise and a tick write nothing that the invariant speaks of, and every instruction
keeps it. -/
theorem everyStepKeepsTheInvariant : Obligations.EveryStepKeepsTheInvariant :=
  fun _ hs => ⟨fun _ => step_keeps (P := fun s => s.wf = true) (fun _ h => h) (fun _ _ h => h) exec_keeps_wf hs, hs⟩

/-- A 12-bit address is at most 0x0FFF as a word (R73). -/
theorem addrWord_le (nnn : Addr) : (addrWord nnn).toNat ≤ 0x0FFF := by
  have hlt := nnn.isLt
  rw [addrWord, BitVec.toNat_setWidth_of_le (by decide)]
  omega

/-- Every instruction keeps the bound on I: LD I loads 12 bits, and no other writes it. -/
theorem exec_keeps_indexBounded (i : Instr) (s t : State) (hs : s.indexBounded = true) (h : exec i s = .next t) :
    t.indexBounded = true := by
  by_cases hi : ∃ nnn, i = .ldI nnn
  · obtain ⟨nnn, rfl⟩ := hi
    cases h
    exact decide_eq_true (addrWord_le nnn)
  · rw [State.indexBounded, exec_i h (not_exists.1 hi)]
    exact hs

/-- Settles O49: neither the advance nor a raise writes I, and every instruction keeps its bound. -/
theorem indexStaysInTwelveBits : Obligations.IndexStaysInTwelveBits :=
  fun _ _ => step_keeps (P := fun s => s.indexBounded = true) (fun _ h => h) (fun _ _ h => h) exec_keeps_indexBounded

end Sys2Proof.Machine
end

section
/-!
PROOF. Who writes what: the register frame (R21), the writers of every other piece of state (R39), and the call
stack's two operations (R28).
-/

namespace Sys2Proof.Machine

/-- Settles O42: the loads, the logic, ADD Vx,NN and RND write Vx; the five flag-writing ALU instructions write Vx
and VF; DRW writes VF; no other instruction writes a register. -/
theorem registersChangeOnlyAsNamed : Obligations.RegistersChangeOnlyAsNamed := by
  intro i s t r h hdest hflag
  cases i with
  | ldVB x | addVB x | ldVV x | orVV x | andVV x | xorVV x | rnd x =>
    have hx : r ≠ x := fun hr => hdest (congrArg some hr.symm)
    cases h
    exact reg_setReg_ne _ _ hx
  | addVV x | subVV x | subnVV x | shrVV x | shlVV x =>
    have hx : r ≠ x := fun hr => hdest (congrArg some hr.symm)
    have hvf : r ≠ vf := fun hr => Bool.noConfusion (hflag hr)
    cases h
    exact writeResultFlag_reg_ne s _ _ hx hvf
  | drw x y n => exact (execDrw_frame h).1 r fun hr => Bool.noConfusion (hflag hr)
  | ret => exact reg_congr (by rw [execRet_frame h]) r
  | call nnn => exact reg_congr (by rw [execCall_frame h]) r
  | _ => cases h; rfl

/-- CALL is one of the two instructions that use the stack (R27). -/
theorem ne_call_of_usesStack {i : Instr} (hi : usesStack i = false) (nnn : Addr) : i ≠ .call nnn := by
  rintro rfl
  cases hi

/-- Settles O43, one frame lemma for each piece of state. -/
theorem stateIsWrittenOnlyByItsWriters : Obligations.StateIsWrittenOnlyByItsWriters := by
  intro i s t h
  obtain ⟨hmem, hdt, hst, hcfg⟩ := exec_constants h
  exact ⟨hmem, sameMemory_of_mem_eq hmem, hdt, hst, hcfg, exec_i h,
    fun hi => ⟨exec_stack h (ne_call_of_usesStack hi), exec_sp h hi⟩, exec_stack h, exec_display h, exec_draws h,
    exec_pc h⟩

/-- A push onto a stack that is not full (R28). -/
theorem push_of_not_full {s : State} (a : Word) (h : s.sp ≠ s.cfg.stackDepth) :
    push a s = .ok { s with stack := s.stack.set s.sp a, sp := s.sp + 1 } := if_neg h

/-- A pop of a stack whose top entry is known: the entry, and one level less (R28). -/
theorem pop_of_top {s : State} {k : Nat} {a : Word} (hsp : s.sp = k + 1) (ha : s.stack[k]? = some a) :
    pop s = .ok (a, { s with sp := k }) := by
  simp [pop, hsp, List.getD_eq_getElem?_getD, ha]

/-- Settles O59: a push within the array's length puts the value where the pop reads it. -/
theorem popReturnsWhatPushPut : Obligations.PopReturnsWhatPushPut := by
  intro a s hs
  obtain ⟨-, hlen, hsp, -, -⟩ := (State.wf_iff s).1 hs
  refine ⟨fun hfull => ?_, fun hfull => if_pos hfull, fun hempty => if_pos hempty⟩
  have htop : (s.stack.set s.sp a)[s.sp]? = some a := List.getElem?_set_self (by omega)
  exact ⟨_, push_of_not_full a hfull, htop, rfl, pop_of_top rfl htop⟩

end Sys2Proof.Machine
end

section
/-!
SUPPORT. RET, CALL and DRW under a change of the timers and of the two compatibility modes (R29, R32). One change of
the state stands for all of them, so that each operation is followed once: the call stack sees none of them, and DRW
sees VWRAP_MODE alone.
-/

namespace Sys2Proof.Machine

/-- The state with its timers and its compatibility modes passed through functions. -/
def State.mapModesTimers (d e : Byte → Byte) (m : ShiftJumpMode → ShiftJumpMode) (w : VwrapMode → VwrapMode)
    (s : State) : State :=
  { s with
    dt := d s.dt
    st := e s.st
    cfg := { s.cfg with shiftJumpMode := m s.cfg.shiftJumpMode, vwrapMode := w s.cfg.vwrapMode } }

/-- Other timer values are such a change. -/
theorem withTimers_eq_map (d e : Byte) :
    State.withTimers d e = State.mapModesTimers (fun _ => d) (fun _ => e) id id := rfl

/-- Other compatibility modes are such a change. -/
theorem withModes_eq_map (sj : ShiftJumpMode) (vw : VwrapMode) :
    State.withModes sj vw = State.mapModesTimers id id (fun _ => sj) (fun _ => vw) := rfl

variable (d e : Byte → Byte) (m : ShiftJumpMode → ShiftJumpMode) (w : VwrapMode → VwrapMode) (s : State)

theorem mapModesTimers_reg (r : RegIdx) : (s.mapModesTimers d e m w).reg r = s.reg r := rfl
theorem mapModesTimers_pc : (s.mapModesTimers d e m w).pc = s.pc := rfl
theorem mapModesTimers_i : (s.mapModesTimers d e m w).i = s.i := rfl

theorem redraw_mapModesTimers :
    redraw (s.mapModesTimers d e m w) = (redraw s).mapModesTimers d e m w := rfl

theorem raise_mapModesTimers (k : ErrorKind) :
    raise k (s.mapModesTimers d e m w) = mapNext (State.mapModesTimers d e m w) (raise k s) := rfl

theorem push_mapModesTimers (a : Word) :
    push a (s.mapModesTimers d e m w) = (push a s).map (State.mapModesTimers d e m w) := by
  rcases push_cases a s with ⟨h, hp⟩ | ⟨h, hp⟩
  · rw [hp]; exact if_pos h
  · rw [hp]; exact if_neg h

theorem pop_mapModesTimers :
    pop (s.mapModesTimers d e m w) = (pop s).map (Prod.map id (State.mapModesTimers d e m w)) := by
  rcases pop_cases s with ⟨h, hp⟩ | ⟨h, hp⟩
  · rw [hp]; exact if_pos h
  · rw [hp]; exact if_neg h

/-- RET sees neither timers nor modes (R103). -/
theorem execRet_mapModesTimers :
    execRet (s.mapModesTimers d e m w) = mapNext (State.mapModesTimers d e m w) (execRet s) := by
  rw [execRet, pop_mapModesTimers, execRet]
  cases pop s <;> rfl

/-- CALL sees neither timers nor modes (R105). -/
theorem execCall_mapModesTimers (nnn : Addr) :
    execCall nnn (s.mapModesTimers d e m w) = mapNext (State.mapModesTimers d e m w) (execCall nnn s) := by
  rw [execCall, mapModesTimers_pc, push_mapModesTimers, execCall]
  cases push s.pc s <;> rfl

theorem pixelWrite_mapModesTimers (row col : Nat) (b : Bool) :
    pixelWrite row col b (s.mapModesTimers d e m w) =
      (pixelWrite row col b s).map (State.mapModesTimers d e m w) := by
  have hgrid : inGrid (s.mapModesTimers d e m w).cfg row col = inGrid s.cfg row col := rfl
  rw [pixelWrite, pixelWrite, hgrid]
  cases inGrid s.cfg row col <;> rfl

/-- One pixel of DRW sees neither timers nor modes, whether its coordinate is in the grid or not (R173, R203). -/
theorem drawPixel_mapModesTimers (sprite : Byte) (row x0 b : Nat) :
    drawPixel sprite row x0 (s.mapModesTimers d e m w) b =
      mapRun (State.mapModesTimers d e m w) (drawPixel sprite row x0 s b) := by
  have hcol : drawColOf (s.mapModesTimers d e m w).cfg x0 b = drawColOf s.cfg x0 b := rfl
  have hread : pixelRead row (drawColOf s.cfg x0 b) (s.mapModesTimers d e m w) =
    pixelRead row (drawColOf s.cfg x0 b) s := rfl
  rw [drawPixel, drawPixel, hcol, hread]
  rcases pixelRead row (drawColOf s.cfg x0 b) s with err | cur
  · rfl
  · simp only [pixelWrite_mapModesTimers]
    cases pixelWrite row (drawColOf s.cfg x0 b) (cur ^^ spriteBit sprite b) s <;> rfl

/-- One sprite row of DRW sees neither timers nor SHIFT_JUMP_MODE, whether CLIP skips it or not (R172, R173). -/
theorem drawRow_mapModesTimers (x0 y0 base r : Nat) :
    drawRow x0 y0 base (s.mapModesTimers d e m id) r =
      mapRun (State.mapModesTimers d e m id) (drawRow x0 y0 base s r) := by
  have hrow : drawRowOf (s.mapModesTimers d e m id).cfg y0 r = drawRowOf s.cfg y0 r := rfl
  rw [drawRow, drawRow, hrow]
  cases drawRowOf s.cfg y0 r with
  | none => rfl
  | some row => exact foldlM_mapRun (fun s b => drawPixel_mapModesTimers d e m id s _ row x0 b) _ s

theorem drawStart_mapModesTimers :
    drawStart (s.mapModesTimers d e m w) = (drawStart s).mapModesTimers d e m w := by
  have hmode : (s.mapModesTimers d e m w).cfg.drwVfMode = s.cfg.drwVfMode := rfl
  rw [drawStart, drawStart, hmode]
  cases s.cfg.drwVfMode <;> rfl

/-- DRW sees neither timers nor SHIFT_JUMP_MODE, in a legal configuration or not (R173). -/
theorem execDrw_mapModesTimers (x y : RegIdx) (n : Nibble) :
    execDrw x y n (s.mapModesTimers d e m id) = mapNext (State.mapModesTimers d e m id) (execDrw x y n s) := by
  rw [execDrw_eq_finish, execDrw_eq_finish, mapModesTimers_reg, mapModesTimers_reg, mapModesTimers_i,
    drawStart_mapModesTimers, foldlM_mapRun fun t r => drawRow_mapModesTimers d e m t _ _ _ r,
    map_mapRun (redraw_mapModesTimers d e m id)]
  exact finish_mapRun (fun k t => raise_mapModesTimers d e m id t k) _

end Sys2Proof.Machine
end

section
/-!
PROOF. The compatibility modes are contained (R32), and a step neither reads nor writes the timers (R29, R259).
-/

namespace Sys2Proof.Machine

/-- Changes that agree on the state an outcome reaches give the same outcome. -/
theorem mapNext_congr {f g : State → State} {o : Host.Outcome State Fault Refusal}
    (h : ∀ t, o = .next t → f t = g t) : mapNext f o = mapNext g o := by
  cases o with
  | next t => exact congrArg Host.Outcome.next (h t rfl)
  | fault | refused => rfl

/-- Setting VWRAP_MODE to what it is changes nothing. -/
theorem withModes_eq_of_vwrapMode {sj : ShiftJumpMode} {vw : VwrapMode} {s : State} (h : vw = s.cfg.vwrapMode) :
    s.withModes sj vw = s.mapModesTimers id id (fun _ => sj) id := by
  subst h
  rfl

/-- DRW is the same under every SHIFT_JUMP_MODE: VWRAP_MODE stays, and DRW leaves it as it is (R32). -/
theorem execDrw_withModes {sj : ShiftJumpMode} {vw : VwrapMode} {s : State} (h : vw = s.cfg.vwrapMode)
    (x y : RegIdx) (n : Nibble) :
    execDrw x y n (s.withModes sj vw) = mapNext (State.withModes sj vw) (execDrw x y n s) := by
  have hsame : ∀ t, execDrw x y n s = .next t →
      t.mapModesTimers id id (fun _ => sj) id = t.withModes sj vw := fun t ht =>
    (withModes_eq_of_vwrapMode (by rw [(execDrw_frame ht).2]; exact h)).symm
  calc execDrw x y n (s.withModes sj vw)
      = execDrw x y n (s.mapModesTimers id id (fun _ => sj) id) := by rw [withModes_eq_of_vwrapMode h]
    _ = mapNext (State.mapModesTimers id id (fun _ => sj) id) (execDrw x y n s) :=
        execDrw_mapModesTimers id id (fun _ => sj) s x y n
    _ = mapNext (State.withModes sj vw) (execDrw x y n s) := mapNext_congr hsame

/-- Settles O45: RET and CALL through the stack operations, DRW through its loops; the shifts and JP V0 keep their
SHIFT_JUMP_MODE, and every other instruction is one update that reads no mode. -/
theorem compatibilityModesAreContained : Obligations.CompatibilityModesAreContained := by
  intro sj vw i s hshift hwrap
  cases i with
  | ret => rw [withModes_eq_map]; exact execRet_mapModesTimers id id (fun _ => sj) (fun _ => vw) s
  | call nnn => rw [withModes_eq_map]; exact execCall_mapModesTimers id id (fun _ => sj) (fun _ => vw) s nnn
  | drw x y n => exact execDrw_withModes (hwrap.resolve_left Bool.noConfusion) x y n
  | shrVV | shlVV | jpV0 =>
    obtain rfl : sj = s.cfg.shiftJumpMode := hshift.resolve_left Bool.noConfusion
    rfl
  | _ => rfl

/-- No instruction reads or writes a timer (R29). -/
theorem exec_withTimers (d e : Byte) (i : Instr) (s : State) :
    exec i (s.withTimers d e) = mapNext (State.withTimers d e) (exec i s) := by
  rw [withTimers_eq_map]
  cases i with
  | ret => exact execRet_mapModesTimers (fun _ => d) (fun _ => e) id id s
  | call nnn => exact execCall_mapModesTimers (fun _ => d) (fun _ => e) id id s nnn
  | drw x y n => exact execDrw_mapModesTimers (fun _ => d) (fun _ => e) id s x y n
  | _ => rfl

/-- A halted core has no step (R207). -/
theorem step_of_fault {s : State} {k : ErrorKind} (h : s.fault = some k) : step s = .fault (.halted k) := by
  rw [step, h]

/-- A step of a running core that fetches an instruction (R100). -/
theorem step_of_fetched_ok {s : State} {i : Instr} (h : s.fault = none) (hi : s.fetched = .ok i) :
    step s = exec i s.advance := by
  rw [step, h, hi]

/-- A step of a running core that fetches an illegal word (R206). -/
theorem step_of_fetched_error {s : State} {err : DecodeError} (h : s.fault = none) (herr : s.fetched = .error err) :
    step s = raise .illegalInstruction s.advance := by
  rw [step, h, herr]

/-- Settles O53: the latch, the fetched word and the advance do not depend on the timers, and no instruction does. -/
theorem stepsIgnoreTheTimers : Obligations.StepsIgnoreTheTimers := by
  intro d e s
  have hfault : (s.withTimers d e).fault = s.fault := rfl
  have hfetched : (s.withTimers d e).fetched = s.fetched := rfl
  have hadvance : (s.withTimers d e).advance = s.advance.withTimers d e := rfl
  cases h : s.fault with
  | some k => rw [step_of_fault h, step_of_fault (hfault.trans h)]; rfl
  | none =>
    cases hf : s.fetched with
    | ok i =>
      rw [step_of_fetched_ok h hf, step_of_fetched_ok (hfault.trans h) (hfetched.trans hf), hadvance,
        exec_withTimers]
    | error err =>
      rw [step_of_fetched_error h hf, step_of_fetched_error (hfault.trans h) (hfetched.trans hf), hadvance]
      rfl

end Sys2Proof.Machine
end

section
/-!
PROOF. Memory (20_memory.md): the two-byte read (R54), and that nothing after construction writes memory or the
configuration (R56, R62, R7). The induction over a schedule stands on its own: what every step and every change of the
timers keep, every schedule keeps.
-/

namespace Sys2Proof.Machine

/-- Two bytes as a word, by shift and or (R54). -/
theorem wordOfBytes_eq_shift_or (hi lo : Byte) :
    wordOfBytes hi lo = (hi.setWidth 16 <<< 8) ||| lo.setWidth 16 := by
  rw [wordOfBytes, BitVec.append_def, BitVec.shiftLeftZeroExtend_eq, BitVec.setWidth'_eq]

/-- Addresses equal modulo 4096 read the same byte (R52). -/
theorem read_congr_mod (m : Memory) {a b : Nat} (h : a % memSize = b % memSize) : Memory.read m a = Memory.read m b :=
  congrArg (Memory.lookup m) h

/-- Settles O5: the pair of bytes is a shift and an or, and the address after 0xFFF is 0 modulo 4096. -/
theorem wordReadIsBigEndianModulo4096 : Obligations.WordReadIsBigEndianModulo4096 := by
  intro m a
  refine ⟨wordOfBytes_eq_shift_or _ _, fun ha => ?_⟩
  have hnext : (a + 1) % 4096 = 0 := by omega
  exact congrArg₂ wordOfBytes (read_congr_mod m ha) (read_congr_mod m hnext)

/-- What every step and every change of the timers keep, a schedule of events keeps (R214): an event is a step, a tick
or the termination signal, after which only the timers change. -/
theorem runEvents_keeps {P : State → Prop} (hstep : ∀ {s t}, P s → step s = .next t → P t)
    (htimers : ∀ d e s, P s → P (s.withTimers d e)) (es : List Event) :
    ∀ {s t : State}, P s → runEvents es s = .next t → P t := by
  induction es with
  | nil => intro s t hs h; cases h; exact hs
  | cons e es ih =>
    intro s t hs h
    cases e with
    | step =>
      cases hu : step s with
      | next u => rw [runEvents, hu] at h; exact ih (hstep hs hu) h
      | fault f | refused f => rw [runEvents, hu] at h; cases h
    | tick => exact ih (htimers _ _ s hs) h
    | terminate =>
      cases h
      rw [afterTermination_eq]
      exact htimers _ _ s hs

/-- Memory and the configuration are those of a given state. -/
def SameMemCfg (s t : State) : Prop := t.mem = s.mem ∧ t.cfg = s.cfg

/-- No instruction changes memory or the configuration (R7, R56). -/
theorem exec_keeps_sameMemCfg {s : State} (i : Instr) (u t : State) (hu : SameMemCfg s u)
    (h : exec i u = .next t) : SameMemCfg s t := by
  obtain ⟨hmem, hcfg⟩ := hu
  obtain ⟨hmem', -, -, hcfg'⟩ := exec_constants h
  exact ⟨hmem'.trans hmem, hcfg'.trans hcfg⟩

/-- No schedule of events changes memory or the configuration (R7, R56, R62). -/
theorem runEvents_sameMemCfg {es : List Event} {s t : State} (h : runEvents es s = .next t) : SameMemCfg s t :=
  runEvents_keeps (P := SameMemCfg s)
    (step_keeps (fun _ hu => hu) (fun _ _ hu => hu) exec_keeps_sameMemCfg)
    (fun _ _ _ hu => hu) es ⟨rfl, rfl⟩ h

/-- Settles O44: equal memories read equal, byte by byte and word by word. -/
theorem memoryAndConfigurationAreConstant : Obligations.MemoryAndConfigurationAreConstant := by
  intro es s t h
  obtain ⟨hmem, hcfg⟩ := runEvents_sameMemCfg h
  exact ⟨hmem, sameMemory_of_mem_eq hmem, fun a => congrArg (Memory.read2 · a) hmem, hcfg⟩

end Sys2Proof.Machine
end

section
/-!
PROOF. The formats (30_encoding.md R71, R72): the fields of an encoded word are its operands, the fields of a word of a
family make up the word again, and an encoded word meets its row's mask and match (R75).
-/

namespace Sys2Proof

@[simp] theorem opField_encodeA12 (op : Nibble) (nnn : Addr) : opField (encodeA12 op nnn) = op :=
  BitVec.eq_of_getLsbD_eq fun k hk => by simp [opField, encodeA12_getLsbD, hk]

@[simp] theorem nnnField_encodeA12 (op : Nibble) (nnn : Addr) : nnnField (encodeA12 op nnn) = nnn :=
  BitVec.eq_of_getLsbD_eq fun k hk => by simp [nnnField, encodeA12_getLsbD, hk]

@[simp] theorem opField_encodeRB (op : Nibble) (x : RegIdx) (nn : Byte) : opField (encodeRB op x nn) = op :=
  BitVec.eq_of_getLsbD_eq fun k hk => by
    have h8 : ¬ 12 + k < 8 := by omega
    simp [opField, encodeRB_getLsbD, hk, h8]

@[simp] theorem xField_encodeRB (op : Nibble) (x : RegIdx) (nn : Byte) : xField (encodeRB op x nn) = x :=
  BitVec.eq_of_getLsbD_eq fun k hk => by
    have h12 : 8 + k < 12 := by omega
    simp [xField, encodeRB_getLsbD, hk, h12]

@[simp] theorem nnField_encodeRB (op : Nibble) (x : RegIdx) (nn : Byte) : nnField (encodeRB op x nn) = nn :=
  BitVec.eq_of_getLsbD_eq fun k hk => by simp [nnField, encodeRB_getLsbD, hk]

@[simp] theorem opField_encodeRRN (op : Nibble) (x y : RegIdx) (n : Nibble) : opField (encodeRRN op x y n) = op :=
  opField_encodeRB op x (y ++ n)

@[simp] theorem xField_encodeRRN (op : Nibble) (x y : RegIdx) (n : Nibble) : xField (encodeRRN op x y n) = x :=
  xField_encodeRB op x (y ++ n)

@[simp] theorem yField_encodeRRN (op : Nibble) (x y : RegIdx) (n : Nibble) : yField (encodeRRN op x y n) = y :=
  BitVec.eq_of_getLsbD_eq fun k hk => by
    have h8 : 4 + k < 8 := by omega
    simp [yField, encodeRRN_getLsbD, hk, h8]

@[simp] theorem nField_encodeRRN (op : Nibble) (x y : RegIdx) (n : Nibble) : nField (encodeRRN op x y n) = n :=
  BitVec.eq_of_getLsbD_eq fun k hk => by simp [nField, encodeRRN_getLsbD, hk]

/-- A word is its two bytes, high byte first (R53). -/
@[simp] theorem wordOfBytes_hiByte_loByte (w : Word) : wordOfBytes (hiByte w) (loByte w) = w :=
  (BitVec.extractLsb'_append_extractLsb'_eq_extractLsb' rfl).trans BitVec.extractLsb'_eq_self

/-- A word of family `op` in format A12 (R72). -/
theorem encodeA12_of_opField {w : Word} {op : Nibble} (hop : (opField w).toNat = op.toNat) :
    encodeA12 op (nnnField w) = w := by
  rw [← BitVec.eq_of_toNat_eq hop]
  exact (BitVec.extractLsb'_append_extractLsb'_eq_extractLsb' rfl).trans BitVec.extractLsb'_eq_self

/-- A word of family `op` in format RB (R72). -/
theorem encodeRB_of_opField {w : Word} {op : Nibble} (hop : (opField w).toNat = op.toNat) :
    encodeRB op (xField w) (nnField w) = w := by
  have hhi : (opField w ++ xField w : BitVec 8) = hiByte w :=
    BitVec.extractLsb'_append_extractLsb'_eq_extractLsb' rfl
  rw [← BitVec.eq_of_toNat_eq hop, encodeRB, hhi]
  exact wordOfBytes_hiByte_loByte w

/-- A word of family `op` in formats RR and RRN (R72). -/
theorem encodeRRN_of_opField {w : Word} {op : Nibble} (hop : (opField w).toNat = op.toNat) :
    encodeRRN op (xField w) (yField w) (nField w) = w := by
  have hlo : (yField w ++ nField w : BitVec 8) = nnField w :=
    BitVec.extractLsb'_append_extractLsb'_eq_extractLsb' rfl
  rw [encodeRRN, hlo]
  exact encodeRB_of_opField hop

/-- The and of two words of format RB, field by field. -/
theorem encodeRB_and (op op' : Nibble) (x x' : RegIdx) (nn nn' : Byte) :
    encodeRB op x nn &&& encodeRB op' x' nn' = encodeRB (op &&& op') (x &&& x') (nn &&& nn') :=
  BitVec.and_append.trans (congrArg (· ++ (nn &&& nn')) BitVec.and_append)

/-- The mask of a row that fixes the op nibble alone, in format A12. -/
theorem encodeA12_and_op (op : Nibble) (nnn : Addr) : encodeA12 op nnn &&& 0xF000#16 = encodeA12 op 0#12 :=
  (BitVec.and_append (x₂ := BitVec.allOnes 4) (y₂ := 0#12)).trans (by rw [BitVec.and_allOnes, BitVec.and_zero]; rfl)

/-- The mask of a row that fixes the op nibble alone, in format RB. -/
theorem encodeRB_and_op (op : Nibble) (x : RegIdx) (nn : Byte) :
    encodeRB op x nn &&& 0xF000#16 = encodeRB op 0#4 0#8 :=
  (encodeRB_and op (BitVec.allOnes 4) x 0#4 nn 0#8).trans
    (by rw [BitVec.and_allOnes, BitVec.and_zero, BitVec.and_zero])

/-- The mask of a row that fixes the op nibble and NN. -/
theorem encodeRB_and_op_nn (op : Nibble) (x : RegIdx) (nn : Byte) :
    encodeRB op x nn &&& 0xF0FF#16 = encodeRB op 0#4 nn :=
  (encodeRB_and op (BitVec.allOnes 4) x 0#4 nn (BitVec.allOnes 8)).trans
    (by rw [BitVec.and_allOnes, BitVec.and_allOnes, BitVec.and_zero])

/-- The mask of a row that fixes the op nibble and N. -/
theorem encodeRRN_and_op_n (op : Nibble) (x y : RegIdx) (n : Nibble) :
    encodeRRN op x y n &&& 0xF00F#16 = encodeRRN op 0#4 0#4 n := by
  have hlo : (y ++ n : BitVec 8) &&& (0#4 ++ BitVec.allOnes 4) = 0#4 ++ n := by
    rw [BitVec.and_append, BitVec.and_zero, BitVec.and_allOnes]
  have hword := encodeRB_and op (BitVec.allOnes 4) x 0#4 (y ++ n) (0#4 ++ BitVec.allOnes 4)
  rw [hlo, BitVec.and_allOnes, BitVec.and_zero] at hword
  exact hword

/-- The word of an instruction matches the mask and match of its opcode-table row (R75). -/
theorem encode_and_rowMask (i : Instr) : encode i &&& i.rowMask = i.rowMatch := by
  cases i with
  | cls | ret => rfl
  | jp nnn | call nnn | ldI nnn | jpV0 nnn => exact encodeA12_and_op _ nnn
  | seVB x nn | sneVB x nn | ldVB x nn | addVB x nn | rnd x nn => exact encodeRB_and_op _ x nn
  | drw x y n => exact encodeRB_and_op _ x (y ++ n)
  | skp x | sknp x => exact encodeRB_and_op_nn _ x _
  | seVV x y | ldVV x y | orVV x y | andVV x y | xorVV x y | addVV x y | subVV x y | shrVV x y | subnVV x y | shlVV x y
  | sneVV x y => exact encodeRRN_and_op_n _ x y _

end Sys2Proof
end

section
/-!
PROOF. The decoder (30_encoding.md R76-R78): an admitted instruction's word decodes to it, and every word either decodes
to the instruction whose encoding it is or stands in R78's list.
-/

namespace Sys2Proof

/-- The word of an admitted instruction decodes to it: each row's op nibble selects its family, a family's N or NN
selects the row, and the other fields are the operands (R75-R77). -/
theorem decodeWord_encode {keySkips : Bool} {i : Instr} (h : i.wf keySkips = true) :
    decodeWord keySkips (encode i) = .ok i := by
  cases i with
  | cls | ret => rfl
  | skp x | sknp x =>
    obtain rfl : keySkips = true := h
    simp [decodeWord, encode]
  | _ => simp [decodeWord, decode8, encode]

/-- Two bytes in front of a sequence decode as their word does (R70). -/
theorem decodeBytes_of_decodeWord {keySkips : Bool} {hi lo : Byte} {i : Instr} (rest : List Byte)
    (h : decodeWord keySkips (wordOfBytes hi lo) = .ok i) :
    decodeBytes keySkips (hi :: lo :: rest) = .ok (i, rest) := by
  rw [decodeBytes, h]

/-- Settles O2: the fields of the encoding are the operands, and its two bytes are the word again. -/
theorem decodeOfEncodeIsIdentity : Obligations.DecodeOfEncodeIsIdentity := by
  intro keySkips i rest h
  have hword := decodeWord_encode h
  exact ⟨hword, decodeBytes_of_decodeWord rest (by rwa [wordOfBytes_hiByte_loByte])⟩

/-- What the family-8 sub-map can do: it answers an instruction that is always admitted, with the word of these
fields, or N is one R78 lists (R77). -/
theorem decode8_cases (n : Nibble) (x y : RegIdx) :
    (∃ i, decode8 n x y = .ok i ∧ encode i = encodeRRN 0x8#4 x y n ∧ ∀ keySkips, i.wf keySkips = true) ∨
    (∃ e, decode8 n x y = .error e ∧ n ∈ [0x8#4, 0x9#4, 0xA#4, 0xB#4, 0xC#4, 0xD#4, 0xF#4]) := by
  fun_cases decode8 n x y with
  | case10 =>
    have hn : n ∈ [0x8#4, 0x9#4, 0xA#4, 0xB#4, 0xC#4, 0xD#4, 0xF#4] := by
      simp only [imp_false, List.mem_cons, List.not_mem_nil, or_false] at *
      bv_omega
    exact .inr ⟨_, rfl, hn⟩
  | _ hn => exact .inl ⟨_, rfl, congrArg (encodeRRN 0x8#4 x y) (BitVec.eq_of_toNat_eq hn.symm), fun _ => rfl⟩

/-- What the decoder can do: it answers an admitted instruction whose encoding is the word, or the word is in R78's
list (R76). -/
theorem decodeWord_cases (keySkips : Bool) (w : Word) :
    (∃ i, decodeWord keySkips w = .ok i ∧ encode i = w ∧ i.wf keySkips = true) ∨
    (∃ e, decodeWord keySkips w = .error e ∧ Machine.IllegalWord keySkips w) := by
  fun_cases decodeWord keySkips w with
  -- Family 0.
  | case1 _ hw | case2 _ _ hw => exact .inl ⟨_, rfl, hw.symm, rfl⟩
  | case3 hop hcls hret => exact .inr ⟨_, rfl, .inl ⟨BitVec.eq_of_toNat_eq hop, hcls, hret⟩⟩
  -- Families 1, 2, A and B, of format A12.
  | case4 hop | case5 hop | case15 hop | case16 hop => exact .inl ⟨_, rfl, encodeA12_of_opField hop, rfl⟩
  -- Families 3, 4, 6, 7 and C, of format RB.
  | case6 hop | case7 hop | case10 hop | case11 hop | case17 hop =>
    exact .inl ⟨_, rfl, encodeRB_of_opField hop, rfl⟩
  -- Family D.
  | case18 hop => exact .inl ⟨_, rfl, encodeRRN_of_opField hop, rfl⟩
  -- Families 5 and 9.
  | case8 hop hn | case13 hop hn => exact .inl ⟨_, rfl, by rw [encode, ← hn, encodeRRN_of_opField hop], rfl⟩
  | case9 hop hn => exact .inr ⟨_, rfl, .inr (.inl ⟨.inl (BitVec.eq_of_toNat_eq hop), hn⟩)⟩
  | case14 hop hn => exact .inr ⟨_, rfl, .inr (.inl ⟨.inr (BitVec.eq_of_toNat_eq hop), hn⟩)⟩
  -- Family 8.
  | case12 hop =>
    rcases decode8_cases (nField w) (xField w) (yField w) with ⟨i, hi, henc, hwf⟩ | ⟨e, he, hn⟩
    · exact .inl ⟨i, hi, henc.trans (encodeRRN_of_opField hop), hwf keySkips⟩
    · exact .inr ⟨e, he, .inr (.inr (.inl ⟨BitVec.eq_of_toNat_eq hop, hn⟩))⟩
  -- Family E.
  | case19 hop hskp | case20 hop _ hskp =>
    exact .inl ⟨_, rfl, by rw [encode, ← hskp.2, encodeRB_of_opField hop], hskp.1⟩
  | case21 hop hskp hsknp =>
    have hkeys : keySkips = false ∨ (nnField w ≠ 0x9E#8 ∧ nnField w ≠ 0xA1#8) := by
      cases keySkips with
      | false => exact .inl rfl
      | true => exact .inr ⟨fun h => hskp ⟨rfl, h⟩, fun h => hsknp ⟨rfl, h⟩⟩
    exact .inr ⟨_, rfl, .inr (.inr (.inr (.inl ⟨BitVec.eq_of_toNat_eq hop, hkeys⟩)))⟩
  -- Family F, the one left.
  | case22 =>
    have hop : opField w = 0xF#4 := by
      simp only [imp_false] at *
      bv_omega
    exact .inr ⟨_, rfl, .inr (.inr (.inr (.inr hop)))⟩

/-- Settles O3: of the two things the decoder can do, the word's decoding leaves the first. -/
theorem decodedWordIsTheEncoding : Obligations.DecodedWordIsTheEncoding := by
  intro keySkips w i h
  rcases decodeWord_cases keySkips w with ⟨j, hj, henc, hwf⟩ | ⟨e, he, -⟩
  · obtain rfl : j = i := Except.ok.inj (hj.symm.trans h)
    exact ⟨henc, hwf, henc ▸ encode_and_rowMask j⟩
  · cases he.symm.trans h

/-- The word of an admitted instruction is not in R78's list: its family is in no bullet, or N or NN is its row's own. -/
theorem not_illegalWord_encode {keySkips : Bool} {i : Instr} (h : i.wf keySkips = true) :
    ¬ Machine.IllegalWord keySkips (encode i) := by
  cases i with
  | cls | ret => unfold Machine.IllegalWord; decide +revert
  | skp x | sknp x =>
    obtain rfl : keySkips = true := h
    simp [Machine.IllegalWord, encode]
  | _ => simp [Machine.IllegalWord, encode]

/-- The words that do not decode are those of R78's list (R76, R78). -/
theorem decodeWord_error_iff (keySkips : Bool) (w : Word) :
    (∃ e, decodeWord keySkips w = .error e) ↔ Machine.IllegalWord keySkips w := by
  rcases decodeWord_cases keySkips w with ⟨i, hi, rfl, hwf⟩ | ⟨e, he, hw⟩
  · have hno : ¬ ∃ e, decodeWord keySkips (encode i) = .error e := by simp [hi]
    exact iff_of_false hno (not_illegalWord_encode hwf)
  · exact iff_of_true ⟨e, he⟩ hw

/-- Settles O4: the decoder refuses R78's words and no others, and a refused word raises after the advance. -/
theorem illegalWordsAreThoseListedAndRaise : Obligations.IllegalWordsAreThoseListedAndRaise := by
  refine ⟨decodeWord_error_iff, fun s hrun hw => ?_⟩
  obtain ⟨e, he⟩ := (decodeWord_error_iff _ _).mpr hw
  exact Machine.step_of_fetched_error hrun he

/-- Settles O1: each word is evaluated. -/
theorem handWrittenWordsDecode : Obligations.HandWrittenWordsDecode := by
  unfold Obligations.HandWrittenWordsDecode
  decide

end Sys2Proof
end

section
/-!
PROOF. Completion (40_control.md R113; 60_exceptions.md R203, R210): in a legal configuration the stack errors of RET
and CALL are the only ones an instruction can raise.
-/

namespace Sys2Proof.Machine

/-- DRW in a legal configuration leaves the latch as it is: no pixel call raises (R203). -/
theorem execDrw_fault {x y : RegIdx} {n : Nibble} {s t : State} (hcfg : s.cfg.wf = true)
    (h : execDrw x y n s = .next t) : t.fault = s.fault := by
  rw [execDrw_eq x y n hcfg] at h
  cases h
  rw [redraw_fault, foldl_drawEvent_eq, drawStart_eq]

/-- What an instruction can do to the latch in a legal configuration: nothing, or it is RET on an empty stack or CALL
on a full one, and the raise changes the latch alone (R201, R202). -/
theorem exec_fault_cases {i : Instr} {s t : State} (hcfg : s.cfg.wf = true) (h : exec i s = .next t) :
    t.fault = s.fault ∨
    (i = .ret ∧ s.sp = 0 ∧ t = { s with fault := some .stackUnderflow }) ∨
    ((∃ nnn, i = .call nnn) ∧ s.sp = s.cfg.stackDepth ∧ t = { s with fault := some .stackOverflow }) := by
  cases i with
  | ret =>
    rcases execRet_cases s with ⟨hempty, he⟩ | ⟨-, he⟩ <;> cases he.symm.trans h
    · exact .inr (.inl ⟨rfl, hempty, rfl⟩)
    · exact .inl rfl
  | call nnn =>
    rcases execCall_cases nnn s with ⟨hfull, he⟩ | ⟨-, he⟩ <;> cases he.symm.trans h
    · exact .inr (.inr ⟨⟨nnn, rfl⟩, hfull, rfl⟩)
    · exact .inl rfl
  | drw x y n => exact .inl (execDrw_fault hcfg h)
  | _ => cases h; exact .inl rfl

/-- Settles O8: every instruction has a next state and keeps the invariant, and only the two stack errors set the
latch. -/
theorem everyInstructionCompletesOrRaisesAStackError : Obligations.EveryInstructionCompletesOrRaisesAStackError := by
  intro i s hs hrun
  obtain ⟨hcfg, -, -, -, -⟩ := (State.wf_iff s).1 hs
  obtain ⟨t, ht⟩ := exec_has_next i s
  refine ⟨t, ht, ?_⟩
  rcases exec_fault_cases hcfg ht with hfault | hraised
  · exact .inl ⟨hfault.trans hrun, exec_keeps_wf i s t hs ht⟩
  · exact .inr hraised

end Sys2Proof.Machine
end

section
/-!
PROOF. Fetching (40_control.md R101): a step runs the instruction whose bytes lie at pc, and a word placed there is the
one fetched (log entries 4 and 9).
-/

namespace Sys2Proof.Machine

/-- Settles O6: the two bytes at pc are the fetched word, and what it decodes to is what the step runs. -/
theorem stepRunsTheDecodedInstruction : Obligations.StepRunsTheDecodedInstruction :=
  fun _ hrun => ⟨fun _ hi => step_of_fetched_ok hrun hi, fun _ he => step_of_fetched_error hrun he⟩

/-- A word read where it was written (R53, R54): its two bytes lie at different addresses modulo 4096. -/
theorem Memory.read2_writeWord {m : Memory} (hm : Memory.wf m = true) (a : Nat) (w : Word) :
    Memory.read2 (Memory.writeWord m a w) a = w := by
  have hwf := Memory.write_wf hm a (hiByte w)
  have hne : a % 4096 ≠ (a + 1) % 4096 := by omega
  rw [Memory.read2, Memory.writeWord, Memory.read_write hwf, Memory.read_write hwf, Memory.read_write hm,
    if_neg hne, if_pos rfl, if_pos rfl, wordOfBytes_hiByte_loByte]

/-- The next step of a state with a word placed at pc fetches that word. -/
theorem fetchWord_placeWord {s : State} (hm : Memory.wf s.mem = true) (w : Word) : (placeWord s w).fetchWord = w :=
  Memory.read2_writeWord hm _ w

/-- A 16-bit opcode-table word is placed as it is. -/
theorem withFetchWord_toNat (s : State) (w : Word) : s.withFetchWord 16 w.toNat = placeWord s w := by
  rw [State.withFetchWord, Nat.mod_eq_of_lt w.isLt, BitVec.ofNat_toNat, BitVec.setWidth_eq]

/-- Without KEY_SKIPS the words of SKP and SKNP are refused (R78, R80). -/
theorem decodeWord_false_encode_keySkip (x : RegIdx) :
    decodeWord false (encode (.skp x)) = .error .familyE ∧ decodeWord false (encode (.sknp x)) = .error .familyE := by
  simp [decodeWord, encode]

/-- The words of SKP and SKNP decode under KEY_SKIPS alone (R80). -/
theorem needsKeySkips_encode_keySkip (x : RegIdx) :
    needsKeySkips (encode (.skp x)) = true ∧ needsKeySkips (encode (.sknp x)) = true := by
  obtain ⟨hskp, hsknp⟩ := decodeWord_false_encode_keySkip x
  constructor
  · rw [needsKeySkips, hskp, decodeWord_encode rfl]
  · rw [needsKeySkips, hsknp, decodeWord_encode rfl]

/-- An instruction is admitted once KEY_SKIPS is on where its word needs it (R80). -/
theorem wf_of_needsKeySkips (keySkips : Bool) (i : Instr) :
    i.wf (keySkips || needsKeySkips (encode i)) = true := by
  cases i with
  | skp x => rw [(needsKeySkips_encode_keySkip x).1, Bool.or_true]; rfl
  | sknp x => rw [(needsKeySkips_encode_keySkip x).2, Bool.or_true]; rfl
  | _ => rfl

/-- An instruction placed at pc is the one fetched. -/
theorem fetched_placeWord_encode {s : State} (hm : Memory.wf s.mem = true) (i : Instr) :
    (placeWord s (encode i)).fetched = .ok i := by
  rw [State.fetched, fetchWord_placeWord hm]
  exact decodeWord_encode (wf_of_needsKeySkips s.cfg.keySkips i)

/-- Settles O10: the placed word is fetched, it is admitted, and placing it leaves no fault latched. -/
theorem placedInstructionIsTheNextRun : Obligations.PlacedInstructionIsTheNextRun := by
  intro i s hm
  rw [withFetchWord_toNat]
  exact step_of_fetched_ok (placeWord_fault s _) (fetched_placeWord_encode hm i)

end Sys2Proof.Machine
end

section
/-!
PROOF. RET and CALL (40_control.md R103, R105): each case of either as one next state, their round trip, and the CALL
to its own address, by induction on the number of steps.
-/

namespace Sys2Proof.Machine

/-- RET's meaning (R103). -/
theorem exec_ret (s : State) : exec .ret s = execRet s := rfl

/-- RET on an empty stack raises (R201). -/
theorem execRet_of_empty {s : State} (h : s.sp = 0) : execRet s = .next { s with fault := some .stackUnderflow } :=
  ((execRet_cases s).resolve_right fun hpop => hpop.1 h).2

/-- RET on a stack whose top entry is known: the entry becomes pc, with one level less (R103). -/
theorem execRet_of_top {s : State} {n : Nat} {a : Word} (hsp : s.sp = n + 1) (ha : s.stack[n]? = some a) :
    execRet s = .next { s with pc := a, sp := n } := by
  rw [execRet, pop_of_top hsp ha]
  rfl

/-- CALL on a full stack raises (R202). -/
theorem execCall_of_full {s : State} (nnn : Addr) (h : s.sp = s.cfg.stackDepth) :
    execCall nnn s = .next { s with fault := some .stackOverflow } :=
  ((execCall_cases nnn s).resolve_right fun hpush => hpush.1 h).2

/-- CALL on a stack with room pushes pc and jumps (R105). -/
theorem execCall_of_room {s : State} (nnn : Addr) (h : s.sp < s.cfg.stackDepth) :
    execCall nnn s = .next { s with stack := s.stack.set s.sp s.pc, sp := s.sp + 1, pc := addrWord nnn } :=
  ((execCall_cases nnn s).resolve_left fun hraise => Nat.ne_of_lt h hraise.1).2

/-- The entry that CALL writes in a state of the invariant with room is the one above the old top (R28). -/
theorem getElem?_set_sp {s : State} (hs : s.wf = true) (h : s.sp < s.cfg.stackDepth) (a : Word) :
    (s.stack.set s.sp a)[s.sp]? = some a := by
  obtain ⟨-, hlen, -, -, -⟩ := (State.wf_iff s).1 hs
  exact List.getElem?_set_self (hlen ▸ h)

/-- Settles O11: the two cases of RET. -/
theorem retPopsOrUnderflows : Obligations.RetPopsOrUnderflows :=
  fun _ => ⟨fun _ _ => execRet_of_top, execRet_of_empty⟩

/-- Settles O13: the pushed entry lies within the array, and every other entry is as before. -/
theorem callPushesOrOverflows : Obligations.CallPushesOrOverflows := by
  intro nnn s hs
  refine ⟨fun hroom => ?_, execCall_of_full nnn⟩
  exact ⟨_, execCall_of_room nnn hroom, rfl, rfl, getElem?_set_sp hs hroom s.pc,
    fun k hk => List.getElem?_set_ne hk.symm, fun _ => rfl, sameMemory_of_mem_eq rfl, rfl⟩

/-- Settles O14: RET pops the entry that CALL pushed, which the fetch advance between them leaves alone. -/
theorem callThenRetReturns : Obligations.CallThenRetReturns := by
  intro nnn s hs hroom
  refine ⟨_, { s with stack := s.stack.set s.sp s.pc }, execCall_of_room nnn hroom, ?_, rfl, List.length_set,
    fun k hk => List.getElem?_set_ne hk.symm⟩
  rw [exec_ret]
  exact execRet_of_top rfl (getElem?_set_sp hs hroom s.pc)

/-- A running core whose next instruction is a CALL to its own address. -/
def SelfCall (nnn : Addr) (s : State) : Prop :=
  s.fault = none ∧ s.pc = addrWord nnn ∧ s.fetched = .ok (.call nnn)

/-- A CALL to its own address with room on the stack changes the stack alone: pc comes back to the CALL. -/
theorem step_selfCall {nnn : Addr} {s : State} (h : SelfCall nnn s) (hroom : s.sp < s.cfg.stackDepth) :
    step s = .next { s with stack := s.stack.set s.sp (s.pc + 2#16), sp := s.sp + 1 } := by
  obtain ⟨hrun, hpc, hcall⟩ := h
  rw [step_of_fetched_ok hrun hcall]
  refine (execCall_of_room (s := s.advance) nnn hroom).trans ?_
  rw [← hpc]
  rfl

/-- A CALL to its own address on a full stack raises after the fetch advance (R202). -/
theorem step_selfCall_full {nnn : Addr} {s : State} (h : SelfCall nnn s) (hfull : s.sp = s.cfg.stackDepth) :
    step s = .next { s with pc := s.pc + 2#16, fault := some .stackOverflow } := by
  obtain ⟨hrun, -, hcall⟩ := h
  rw [step_of_fetched_ok hrun hcall]
  exact execCall_of_full (s := s.advance) nnn hfull

/-- A run whose first step is known goes on from the state it answers. -/
theorem run_succ_of_step {s t : core.State} (h : core.step s = .next t) (k : Nat) :
    core.run (k + 1) s = core.run k t := by
  rw [Host.Core.run, h]

/-- While there is room, a CALL to its own address changes the stack alone, with one level more per step. -/
theorem run_selfCall {nnn : Addr} (k : Nat) : ∀ {s : State}, SelfCall nnn s → s.sp + k ≤ s.cfg.stackDepth →
    ∃ stack, core.run k s = .next { s with stack := stack, sp := s.sp + k } := by
  induction k with
  | zero => intro s _ _; exact ⟨s.stack, rfl⟩
  | succ k ih =>
    intro s h hroom
    have hstep := step_selfCall h (by omega)
    obtain ⟨stack, hrun⟩ := ih (s := { s with stack := s.stack.set s.sp (s.pc + 2#16), sp := s.sp + 1 }) h
      (by simp only; omega)
    refine ⟨stack, (run_succ_of_step hstep k).trans ?_⟩
    rw [Nat.add_comm k 1, ← Nat.add_assoc]
    exact hrun

/-- Settles O15: STACK_DEPTH steps from an empty stack fill it, and the CALL is still the next instruction. -/
theorem selfCallOverflowsWhenFull : Obligations.SelfCallOverflowsWhenFull := by
  intro nnn s _ hrun hempty hpc hcall
  have hself : SelfCall nnn s := ⟨hrun, hpc, hcall⟩
  have hdepth : s.sp + s.cfg.stackDepth = s.cfg.stackDepth := by omega
  obtain ⟨stack, ht⟩ := run_selfCall s.cfg.stackDepth hself (Nat.le_of_eq hdepth)
  exact ⟨_, ht, hdepth, hrun, step_selfCall_full hself hdepth⟩

end Sys2Proof.Machine
end

section
/-!
PROOF. Jumps and skips (40_control.md R102, R104, R106-R112): the two readings of the jump with offset as numbers, and
one rule for the six skips.
-/

namespace Sys2Proof.Machine

/-! ### Jumps -/

/-- Settles O12: the definition of JP is its rule. -/
theorem jumpSetsPc : Obligations.JumpSetsPc := fun _ _ => rfl

/-- Setting pc changes nothing else. -/
theorem setPc_onlyPc (s : State) (a : Word) : OnlyPc s (s.setPc a) :=
  ⟨fun _ => rfl, sameMemory_of_mem_eq rfl, rfl⟩

/-- A 12-bit address as a word keeps its value (R73). -/
theorem addrWord_toNat (nnn : Addr) : (addrWord nnn).toNat = nnn.toNat :=
  BitVec.toNat_setWidth_of_le (by decide)

/-- A byte as a word keeps its value (R110). -/
theorem byteWord_toNat (b : Byte) : (byteWord b).toNat = b.toNat :=
  BitVec.toNat_setWidth_of_le (by decide)

/-- The register of the SHIFTED reading is the top digit of the address (R110). -/
theorem jumpReg_eq (nnn : Addr) : jumpReg nnn = BitVec.ofNat 4 (nnn.toNat / 256) := by
  rw [jumpReg, BitVec.extractLsb', Nat.shiftRight_eq_div_pow]

/-- The offset of the SHIFTED reading is the low byte of the address (R110). -/
theorem jumpOffset_toNat (nnn : Addr) : (jumpOffset nnn).toNat = nnn.toNat % 256 := by
  rw [jumpOffset, BitVec.extractLsb'_toNat, Nat.shiftRight_zero]

/-- In LEGACY mode the target is NNN + V0, unreduced (R110). -/
theorem jumpTarget_legacy_toNat (nnn : Addr) {s : State} (h : s.cfg.shiftJumpMode = .legacy) :
    (jumpTarget nnn s).toNat = nnn.toNat + (s.reg 0#4).toNat := by
  have hnnn := nnn.isLt
  have hv0 := (s.reg 0#4).isLt
  rw [jumpTarget, h, BitVec.toNat_add_of_lt (by rw [addrWord_toNat, byteWord_toNat]; omega), addrWord_toNat,
    byteWord_toNat]

/-- In SHIFTED mode the target is V[NNN[11:8]] + NNN[7:0] (R110). -/
theorem jumpTarget_shifted_toNat (nnn : Addr) {s : State} (h : s.cfg.shiftJumpMode = .shifted) :
    (jumpTarget nnn s).toNat = (s.reg (BitVec.ofNat 4 (nnn.toNat / 256))).toNat + nnn.toNat % 256 := by
  have hoff := (jumpOffset nnn).isLt
  have hvx := (s.reg (jumpReg nnn)).isLt
  rw [jumpTarget, h, BitVec.toNat_add_of_lt (by rw [byteWord_toNat, byteWord_toNat]; omega), byteWord_toNat,
    byteWord_toNat, jumpReg_eq, jumpOffset_toNat]

/-- Settles O18: each target is an exact sum, bounded by the widths of its two terms. -/
theorem jumpWithOffsetTargets : Obligations.JumpWithOffsetTargets := by
  intro nnn s
  constructor
  · intro hmode
    have hpc := jumpTarget_legacy_toNat nnn hmode
    have hnnn := nnn.isLt
    have hv0 := (s.reg 0#4).isLt
    exact ⟨_, rfl, hpc, hpc.trans_le (by omega), setPc_onlyPc s _⟩
  · intro hmode
    have hpc := jumpTarget_shifted_toNat nnn hmode
    have hvx := (s.reg (BitVec.ofNat 4 (nnn.toNat / 256))).isLt
    exact ⟨_, rfl, hpc, hpc.trans_le (by omega), setPc_onlyPc s _⟩

/-! ### Skips -/

/-- A skip on a condition, as a state: pc goes on by 2 if it holds (R102). -/
theorem skipIf_of_iff (s : State) {c : Bool} {P : Prop} [Decidable P] (h : c = true ↔ P) :
    s.skipIf c = { s with pc := if P then s.pc + 2#16 else s.pc } := by
  rw [State.skipIf, State.setPc, if_congr h rfl rfl]

/-- Settles O16: each compare skip is the skip primitive on its comparison. -/
theorem compareSkipsMovePc : Obligations.CompareSkipsMovePc := by
  refine ⟨fun x nn s => ⟨?_, ?_⟩, fun x y s => ⟨?_, ?_⟩⟩
  all_goals exact congrArg Host.Outcome.next (skipIf_of_iff s decide_eq_true_iff)

/-- A poll answer equals a register iff a key is reported and its zero extension is the register (R111). -/
theorem keyEquals_iff (k : Option Nibble) (b : Byte) : keyEquals k b = true ↔ k.map (·.setWidth 8) = some b := by
  cases k <;> simp [keyEquals]

/-- A poll answer differs from a register iff no key is reported or its zero extension is another byte (R112). -/
theorem not_keyEquals_iff (k : Option Nibble) (b : Byte) :
    (!keyEquals k b) = true ↔ k = none ∨ k.map (·.setWidth 8) ≠ some b := by
  rw [Bool.not_eq_true', ← Bool.not_eq_true, keyEquals_iff]
  exact ⟨.inr, fun h => h.elim (by rintro rfl; exact nofun) id⟩

/-- Settles O19: the skip primitive after one poll, on the two readings of the key comparison. -/
theorem keySkipsPollOnce : Obligations.KeySkipsPollOnce := by
  refine ⟨fun x s => ⟨?_, ?_⟩, fun k rest s => pollKey_fst_cons s k rest, fun x => ?_⟩
  · exact congrArg Host.Outcome.next (skipIf_of_iff _ (keyEquals_iff _ _))
  · exact congrArg Host.Outcome.next (skipIf_of_iff _ (not_keyEquals_iff _ _))
  · exact ⟨decodeWord_encode rfl, decodeWord_encode rfl, decodeWord_false_encode_keySkip x⟩

/-- A step whose instruction skips on a condition: pc + 4 if it holds, else pc + 2 (R102). -/
theorem step_of_skipIf {s u : State} {i : Instr} {c : Bool} {P : Prop} [Decidable P] (hrun : s.fault = none)
    (hi : s.fetched = .ok i) (hexec : exec i s.advance = .next (u.skipIf c)) (hpc : u.pc = s.pc + 2#16)
    (hc : c = true ↔ P) : ∃ t, step s = .next t ∧ t.pc = if P then s.pc + 4#16 else s.pc + 2#16 := by
  refine ⟨_, (step_of_fetched_ok hrun hi).trans hexec, ?_⟩
  rw [skipIf_pc, hpc, BitVec.add_assoc, if_congr hc rfl rfl]
  rfl

/-- A step whose instruction skips unless a condition holds: the two addresses change places (R102). -/
theorem step_of_skipIf_not {s u : State} {i : Instr} {c : Bool} {P : Prop} [Decidable P] (hrun : s.fault = none)
    (hi : s.fetched = .ok i) (hexec : exec i s.advance = .next (u.skipIf c)) (hpc : u.pc = s.pc + 2#16)
    (hc : c = true ↔ ¬ P) : ∃ t, step s = .next t ∧ t.pc = if P then s.pc + 2#16 else s.pc + 4#16 := by
  rw [← ite_not]
  exact step_of_skipIf hrun hi hexec hpc hc

/-- Settles O17: each of the six is a skip after the advance, on its condition or on the condition's negation. -/
theorem skipPassesOneInstruction : Obligations.SkipPassesOneInstruction :=
  ⟨fun _ _ _ hrun =>
    ⟨fun hi => step_of_skipIf hrun hi rfl rfl decide_eq_true_iff,
      fun hi => step_of_skipIf_not hrun hi rfl rfl decide_eq_true_iff⟩,
  fun _ _ _ hrun =>
    ⟨fun hi => step_of_skipIf hrun hi rfl rfl decide_eq_true_iff,
      fun hi => step_of_skipIf_not hrun hi rfl rfl decide_eq_true_iff⟩,
  fun _ _ hrun =>
    ⟨fun hi => step_of_skipIf hrun hi rfl rfl Iff.rfl,
      fun hi => step_of_skipIf_not hrun hi rfl rfl Bool.not_iff_not⟩⟩

end Sys2Proof.Machine
end

section
/-!
PROOF. The ALU and RND (41_alu.md R130-R145). The two ways an ALU instruction writes registers are said once: one
register, or a result and then a flag. The results and flags are read as numbers, and R136-R140 and R144 follow from
R141 with these values.
-/

namespace Sys2Proof.Machine

/-! ### Results and flags as numbers -/

/-- The sum of two bytes, reduced (R142). -/
theorem sumByte_toNat (a b : Byte) : (sumByte a b).toNat = (a.toNat + b.toNat) % 256 :=
  BitVec.toNat_ofNat _ _

/-- The difference of two bytes is the integer difference, reduced (R142): the 256 added first is a multiple of the
modulus. -/
theorem diffByte_toNat (a b : Byte) : ((diffByte a b).toNat : Int) = ((a.toNat : Int) - b.toNat) % 256 := by
  have hb := b.isLt
  rw [diffByte, BitVec.toNat_ofNat]
  omega

/-- A shift right by one halves (R139). -/
theorem shrByte_toNat (v : Byte) : (shrByte v).toNat = v.toNat / 2 := by
  rw [shrByte, BitVec.toNat_ushiftRight, Nat.shiftRight_eq_div_pow]

/-- The bit SHR shifts out is the parity (R139). -/
theorem shrFlag_toNat (v : Byte) : (shrFlag v).toNat = v.toNat % 2 := by
  rw [shrFlag, BitVec.toNat_and]
  exact Nat.and_one_is_mod _

/-- A shift left by one doubles, reduced (R140). -/
theorem shlByte_toNat (v : Byte) : (shlByte v).toNat = v.toNat * 2 % 256 := by
  rw [shlByte, BitVec.toNat_shiftLeft, Nat.shiftLeft_eq]

/-- The bit SHL shifts out is the top one (R140). -/
theorem shlFlag_toNat (v : Byte) : (shlFlag v).toNat = v.toNat / 128 := by
  have hv := v.isLt
  have hand : (shlFlag v).toNat = v.toNat / 128 % 2 := by
    rw [shlFlag, BitVec.toNat_and, BitVec.toNat_ushiftRight, Nat.shiftRight_eq_div_pow]
    exact Nat.and_one_is_mod _
  omega

/-- The shifted value, by the mode (R139, R140). -/
theorem shiftSource_eq (x y : RegIdx) (s : State) :
    shiftSource x y s = if s.cfg.shiftJumpMode = .legacy then s.reg y else s.reg x := by
  rw [shiftSource]
  cases s.cfg.shiftJumpMode <;> rfl

/-! ### Every flag is 0 or 1 (R144) -/

/-- A byte below 2 is 0 or 1. -/
theorem eq_zero_or_one_of_toNat_lt {b : Byte} (h : b.toNat < 2) : b = 0#8 ∨ b = 1#8 := by
  bv_omega

theorem carryFlag_zero_or_one (a b : Byte) : carryFlag a b = 0#8 ∨ carryFlag a b = 1#8 :=
  (ite_eq_or_eq _ _ _).symm

theorem noBorrowFlag_zero_or_one (a b : Byte) : noBorrowFlag a b = 0#8 ∨ noBorrowFlag a b = 1#8 :=
  ite_eq_or_eq _ _ _

theorem shrFlag_zero_or_one (v : Byte) : shrFlag v = 0#8 ∨ shrFlag v = 1#8 :=
  eq_zero_or_one_of_toNat_lt (by rw [shrFlag_toNat]; omega)

theorem shlFlag_zero_or_one (v : Byte) : shlFlag v = 0#8 ∨ shlFlag v = 1#8 :=
  eq_zero_or_one_of_toNat_lt (by have hv := v.isLt; rw [shlFlag_toNat]; omega)

/-! ### The two writes -/

/-- A write of one register (R20): Vx reads the byte written, and nothing else changes. -/
theorem setReg_effect (s : State) (x : RegIdx) (b : Byte) :
    (s.setReg x b).reg x = b ∧ OnlyRegs [x] s (s.setReg x b) :=
  ⟨reg_setReg_same s x b, fun _ hr => reg_setReg_ne s b (List.ne_of_not_mem_cons hr), sameMemory_of_mem_eq rfl, rfl⟩

/-- A result and then a flag (R141): VF reads the flag, Vx the result unless it is VF, and nothing else changes. -/
theorem writeResultFlag_effect (s : State) (x : RegIdx) (a f : Byte) :
    (writeResultFlag x a f s).reg vf = f ∧ (x ≠ vf → (writeResultFlag x a f s).reg x = a) ∧
      OnlyRegs [x, vf] s (writeResultFlag x a f s) := by
  refine ⟨writeResultFlag_vf s x a f, fun hx => ?_, fun r hr => ?_, sameMemory_of_mem_eq rfl,
    writeResultFlag_eq s x a f⟩
  · rw [writeResultFlag_reg s a f hx, if_pos rfl]
  · exact writeResultFlag_reg_ne s a f (List.ne_of_not_mem_cons hr)
      (List.ne_of_not_mem_cons (List.not_mem_of_not_mem_cons hr))

/-! ### The flag-writing instructions -/

/-- Settles O27: each of the five is one write of a result and then a flag, both taken from the state before. -/
theorem resultThenFlagFromOldOperands : Obligations.ResultThenFlagFromOldOperands := by
  rintro x y s _ _ _ rfl rfl rfl
  exact ⟨⟨_, rfl, writeResultFlag_effect s x _ _⟩, ⟨_, rfl, writeResultFlag_effect s x _ _⟩,
    ⟨_, rfl, writeResultFlag_effect s x _ _⟩, ⟨_, rfl, writeResultFlag_effect s x _ _⟩,
    ⟨_, rfl, writeResultFlag_effect s x _ _⟩⟩

/-- Settles O23: R141 for ADD Vx,Vy, with the sum read as a number. -/
theorem addWritesSumAndCarry : Obligations.AddWritesSumAndCarry := by
  intro x y s
  obtain ⟨⟨t, ht, hflag, hresult, hframe⟩, -⟩ := resultThenFlagFromOldOperands x y s _ _ _ rfl rfl rfl
  exact ⟨t, ht, hflag, fun hx => hresult hx ▸ sumByte_toNat _ _, hframe⟩

/-- Settles O24: R141 for SUB and SUBN, with the difference read as a number; SUBN is SUB with the operands' places
changed. -/
theorem subtractsWriteDifferenceAndNoBorrow : Obligations.SubtractsWriteDifferenceAndNoBorrow := by
  intro x y s
  obtain ⟨-, ⟨t, ht, hflag, hresult, hframe⟩, ⟨u, hu, hnflag, hnresult, hnframe⟩, -⟩ :=
    resultThenFlagFromOldOperands x y s _ _ _ rfl rfl rfl
  exact ⟨⟨t, ht, hflag, fun hx => hresult hx ▸ diffByte_toNat _ _, hframe⟩,
    ⟨u, hu, hnflag, fun hx => hnresult hx ▸ diffByte_toNat _ _, hnframe⟩⟩

/-- Settles O25: R141 for SHR and SHL, with the mode's operand, and results and flags read as numbers. -/
theorem shiftsWriteResultAndBitOut : Obligations.ShiftsWriteResultAndBitOut := by
  intro x y s v hv
  obtain ⟨-, -, -, ⟨t, ht, hflag, hresult, hframe⟩, ⟨u, hu, hlflag, hlresult, hlframe⟩⟩ :=
    resultThenFlagFromOldOperands x y s _ _ v rfl rfl (hv.trans (shiftSource_eq x y s).symm)
  exact ⟨⟨t, ht, hflag ▸ shrFlag_toNat v, fun hx => hresult hx ▸ shrByte_toNat v, hframe⟩,
    ⟨u, hu, hlflag ▸ shlFlag_toNat v, fun hx => hlresult hx ▸ shlByte_toNat v, hlframe⟩⟩

/-- Settles O26: the flag that R141 leaves in VF is 0 or 1 for each of the five. -/
theorem aluFlagsAreZeroOrOne : Obligations.AluFlagsAreZeroOrOne := by
  intro i x y s hi
  obtain ⟨⟨t₁, h₁, hadd, -⟩, ⟨t₂, h₂, hsub, -⟩, ⟨t₃, h₃, hsubn, -⟩, ⟨t₄, h₄, hshr, -⟩, ⟨t₅, h₅, hshl, -⟩⟩ :=
    resultThenFlagFromOldOperands x y s _ _ _ rfl rfl rfl
  simp only [List.mem_cons, List.not_mem_nil, or_false] at hi
  rcases hi with rfl | rfl | rfl | rfl | rfl
  · exact ⟨t₁, h₁, hadd ▸ carryFlag_zero_or_one _ _⟩
  · exact ⟨t₂, h₂, hsub ▸ noBorrowFlag_zero_or_one _ _⟩
  · exact ⟨t₃, h₃, hsubn ▸ noBorrowFlag_zero_or_one _ _⟩
  · exact ⟨t₄, h₄, hshr ▸ shrFlag_zero_or_one _⟩
  · exact ⟨t₅, h₅, hshl ▸ shlFlag_zero_or_one _⟩

/-! ### The instructions that write one register -/

/-- Settles O20: each is one register write, and the sum is read as a number. -/
theorem immediateLoadAndAdd : Obligations.ImmediateLoadAndAdd := by
  intro x nn s
  obtain ⟨hsum, hframe⟩ := setReg_effect s x (sumByte (s.reg x) nn)
  exact ⟨⟨_, rfl, setReg_effect s x nn⟩, ⟨_, rfl, (congrArg BitVec.toNat hsum).trans (sumByte_toNat _ _), hframe⟩⟩

/-- Settles O21: each is one register write. -/
theorem registerCopyAndLogic : Obligations.RegisterCopyAndLogic := by
  intro x y s
  exact ⟨⟨_, rfl, setReg_effect s x _⟩, ⟨_, rfl, setReg_effect s x _⟩, ⟨_, rfl, setReg_effect s x _⟩,
    ⟨_, rfl, setReg_effect s x _⟩⟩

/-- An instruction that neither names VF as its destination nor writes flags answers a state with VF as before
(R21). -/
theorem exec_leaves_vf {i : Instr} (s : State) (hdest : destReg i ≠ some vf) (hflag : writesFlag i = false) :
    ∃ t, exec i s = .next t ∧ t.reg vf = s.reg vf := by
  obtain ⟨t, ht⟩ := exec_has_next i s
  exact ⟨t, ht, registersChangeOnlyAsNamed i s t vf ht hdest fun _ => hflag⟩

/-- Settles O22: the seven have Vx as their destination and write no flag (R21). -/
theorem logicAndLoadsLeaveTheFlag : Obligations.LogicAndLoadsLeaveTheFlag := by
  intro x y nn s hx
  have hdest : some x ≠ some vf := fun h => hx (Option.some.inj h)
  exact ⟨exec_leaves_vf s hdest rfl, exec_leaves_vf s hdest rfl, exec_leaves_vf s hdest rfl,
    exec_leaves_vf s hdest rfl, exec_leaves_vf s hdest rfl, exec_leaves_vf s hdest rfl, exec_leaves_vf s hdest rfl⟩

/-- A masked byte has no bit outside the mask (R145). -/
theorem and_and_not_self (b nn : Byte) : b &&& nn &&& ~~~nn = 0#8 := by
  rw [BitVec.and_assoc, BitVec.and_not_self]
  exact BitVec.and_zero

/-- Settles O28: one register write after one draw, which leaves the registers and memory alone. -/
theorem randomIsMaskedDraw : Obligations.RandomIsMaskedDraw := by
  intro x nn s
  have hx := reg_setReg_same (drawRand s).2 x ((drawRand s).1 &&& nn)
  have hmask := (congrArg (· &&& ~~~nn) hx).trans (and_and_not_self _ nn)
  exact ⟨⟨_, rfl, hx, hmask, fun r hr => reg_setReg_ne _ _ hr, sameMemory_of_mem_eq rfl, rfl⟩, drawRand_fst_cons s⟩

end Sys2Proof.Machine
end

section
/-!
SUPPORT. DRW's coordinates (42_index_display.md R172): the row of a sprite row in each mode, and that a sprite which
does not overlap itself lands no two of its bits on one pixel (R177).
-/

namespace Sys2Proof.Machine

variable {c : Config} {x0 y0 row n r r' b b' : Nat}

/-- Under WRAP the row wraps (R172). -/
theorem drawRowOf_wrap (h : c.vwrapMode = .wrap) (y0 r : Nat) : drawRowOf c y0 r = some ((y0 + r) % c.gridH) := by
  rw [drawRowOf, h]

/-- Under CLIP the row is skipped from GRID_H on (R172). -/
theorem drawRowOf_clip (h : c.vwrapMode = .clip) (y0 r : Nat) :
    drawRowOf c y0 r = if y0 + r < c.gridH then some (y0 + r) else none := by
  rw [drawRowOf, h]

/-- A sprite bit lands on a pixel iff the pixel has its row and its column. -/
theorem drawHits_iff {col : Nat} :
    drawHits c x0 y0 row col r b = true ↔ drawRowOf c y0 r = some row ∧ drawColOf c x0 b = col := by
  rw [drawHits, Bool.and_eq_true, decide_eq_true_iff, decide_eq_true_iff]

/-- A bit of a row that CLIP skips lands nowhere. -/
theorem drawHits_of_skipped {col : Nat} (h : drawRowOf c y0 r = none) : drawHits c x0 y0 row col r b = false := by
  simp [drawHits, h]

/-- Offsets below the modulus that wrap to one place are one offset. -/
theorem eq_of_add_mod_eq {m a i j : Nat} (hi : i < m) (hj : j < m) (h : (a + i) % m = (a + j) % m) : i = j :=
  (Nat.ModEq.add_left_cancel' a h).eq_of_lt_of_lt hi hj

/-- Two sprite rows on one row of the grid are one sprite row, under CLIP or up to GRID_H rows (R177). -/
theorem eq_of_drawRowOf_eq (hno : NoSelfOverlap c n) (hr : r < n) (hr' : r' < n) (h : drawRowOf c y0 r = some row)
    (h' : drawRowOf c y0 r' = some row) : r' = r := by
  obtain ⟨-, hmode⟩ := hno
  cases hv : c.vwrapMode with
  | wrap =>
    have hn : n ≤ c.gridH := hmode.resolve_left (by rw [hv]; exact nofun)
    rw [drawRowOf_wrap hv, Option.some.injEq] at h h'
    exact eq_of_add_mod_eq (hr'.trans_le hn) (hr.trans_le hn) (h'.trans h.symm)
  | clip =>
    rw [drawRowOf_clip hv, Option.ite_none_right_eq_some, Option.some.injEq] at h h'
    omega

/-- Where a sprite does not overlap itself, the bit that lands on the pixel of bit (r, b) is that bit (R177). -/
theorem eq_of_drawHits (hno : NoSelfOverlap c n) (hr : r < n) (hb : b < 8) (hr' : r' < n) (hb' : b' < 8)
    (hrow : drawRowOf c y0 r = some row) (h : drawHits c x0 y0 row (drawColOf c x0 b) r' b' = true) :
    r' = r ∧ b' = b := by
  obtain ⟨hrow', hcol⟩ := drawHits_iff.1 h
  have hw : 8 ≤ c.gridW := hno.1
  exact ⟨eq_of_drawRowOf_eq hno hr hr' hrow hrow', eq_of_add_mod_eq (hb'.trans_le hw) (hb.trans_le hw) hcol⟩

end Sys2Proof.Machine
end

section
/-!
SUPPORT. A pass over visited pixels (R173, R174): each pixel is XORed with the bits visited on it, and VF gathers the
collisions, a visit seeing what the earlier ones wrote.
-/

namespace Sys2Proof.Machine

/-- The bits that a pass visits on one pixel, in order. -/
def bitsOn (row col : Nat) (l : List (Nat × Nat × Bool)) : List Bool :=
  (l.filter fun e => decide (e.1 = row) && decide (e.2.1 = col)).map fun e => e.2.2

theorem bitsOn_append (row col : Nat) (l l' : List (Nat × Nat × Bool)) :
    bitsOn row col (l ++ l') = bitsOn row col l ++ bitsOn row col l' := by
  rw [bitsOn, List.filter_append, List.map_append]
  rfl

/-- The parity of two lists in a row. -/
theorem parity_append (bs bs' : List Bool) : parity (bs ++ bs') = (parity bs ^^ parity bs') := by
  have h := List.foldl_assoc (op := fun a b : Bool => a ^^ b) (l := bs') (a₁ := parity bs) (a₂ := false)
  rw [Bool.xor_false] at h
  rw [parity, List.foldl_append]
  exact h

/-- A visit XORs its bit into its own pixel. -/
theorem drawEvent_pixel {s : State} {e : Nat × Nat × Bool} (hfb : fbShape s.cfg s.fb = true)
    (he : e.1 < s.cfg.gridH ∧ e.2.1 < s.cfg.gridW) (row col : Nat) :
    (drawEvent s e).pixel row col = (s.pixel row col ^^ parity (bitsOn row col [e])) := by
  have hget := fbGet_fbSet hfb he.1 he.2 (s.pixel e.1 e.2.1 ^^ e.2.2) row col
  rw [State.pixel, drawEvent_fb, hget]
  by_cases hhit : row = e.1 ∧ col = e.2.1
  · obtain ⟨rfl, rfl⟩ := hhit
    simp [bitsOn, parity]
  · rw [if_neg hhit]
    have hmiss : ¬ (e.1 = row ∧ e.2.1 = col) := fun h => hhit ⟨h.1.symm, h.2.symm⟩
    simp [bitsOn, hmiss, parity, State.pixel]

/-- A pass XORs every pixel with the bits it visits there. -/
theorem foldl_drawEvent_pixel (row col : Nat) (l : List (Nat × Nat × Bool)) : ∀ {s : State},
    fbShape s.cfg s.fb = true → (∀ e ∈ l, e.1 < s.cfg.gridH ∧ e.2.1 < s.cfg.gridW) →
    (l.foldl drawEvent s).pixel row col = (s.pixel row col ^^ parity (bitsOn row col l)) := by
  induction l with
  | nil => intro s _ _; exact (Bool.xor_false _).symm
  | cons e l ih =>
    intro s hfb hgrid
    obtain ⟨he, hl⟩ := List.forall_mem_cons.1 hgrid
    have hparity : parity (bitsOn row col (e :: l)) =
        (parity (bitsOn row col [e]) ^^ parity (bitsOn row col l)) := by
      rw [← List.singleton_append, bitsOn_append, parity_append]
    have hfb' : fbShape (drawEvent s e).cfg (drawEvent s e).fb = true := fbSet_shape hfb _ _
    rw [List.foldl_cons, ih hfb' hl, drawEvent_pixel hfb he, hparity, Bool.xor_assoc]

/-- Whether a pass visits a set bit on a pixel that is lit at that visit (R174). -/
def drawCollides : State → List (Nat × Nat × Bool) → Bool
  | _, [] => false
  | s, e :: l => s.pixel e.1 e.2.1 && e.2.2 || drawCollides (drawEvent s e) l

/-- A pass sets bit 0 of VF iff it collides, and leaves the other bits (R174). -/
theorem foldl_drawEvent_reg_vf (l : List (Nat × Nat × Bool)) : ∀ s : State,
    (l.foldl drawEvent s).reg vf = s.reg vf ||| (if drawCollides s l = true then 1#8 else 0#8) := by
  induction l with
  | nil => intro s; exact BitVec.or_zero.symm
  | cons e l ih =>
    intro s
    rw [List.foldl_cons, ih, drawEvent_reg_vf, BitVec.or_assoc, drawCollides]
    cases s.pixel e.1 e.2.1 && e.2.2 <;> cases drawCollides (drawEvent s e) l <;> rfl

/-- A pass in two parts collides in the first, or in the second from where the first has come. -/
theorem drawCollides_append (l l' : List (Nat × Nat × Bool)) : ∀ s : State,
    drawCollides s (l ++ l') = (drawCollides s l || drawCollides (l.foldl drawEvent s) l') := by
  induction l with
  | nil => intro s; rfl
  | cons e l ih => intro s; rw [List.cons_append, drawCollides, drawCollides, ih, Bool.or_assoc]; rfl

end Sys2Proof.Machine
end

section
/-!
SUPPORT. The pass of a DRW, cut where a bit is visited (R173, R177): whole sprite rows, then the first bits of one
row. The bits that fall on a pixel before a visit are those of the cut pass, so the collision of the pass is the
collision in drawing order.
-/

namespace Sys2Proof.Machine

variable (s : State) (x0 y0 base : Nat)

/-- The pixels of the first `k` bits of a sprite row, each with its bit; none where CLIP skips the row (R172, R173). -/
def drawRowEvents (r k : Nat) : List (Nat × Nat × Bool) :=
  match drawRowOf s.cfg y0 r with
  | none => []
  | some row => (List.range k).map fun b => (row, drawColOf s.cfg x0 b, spriteBit (Memory.read s.mem (base + r)) b)

/-- The pixels a DRW visits before bit `b` of sprite row `r`. -/
def drawEventsBefore (r b : Nat) : List (Nat × Nat × Bool) :=
  drawEvents s x0 y0 base r ++ drawRowEvents s x0 y0 base r b

theorem drawRowEvents_of_drawn {r row : Nat} (h : drawRowOf s.cfg y0 r = some row) (k : Nat) :
    drawRowEvents s x0 y0 base r k =
      (List.range k).map fun b => (row, drawColOf s.cfg x0 b, spriteBit (Memory.read s.mem (base + r)) b) := by
  rw [drawRowEvents, h]

theorem drawRowEvents_of_skipped {r : Nat} (h : drawRowOf s.cfg y0 r = none) (k : Nat) :
    drawRowEvents s x0 y0 base r k = [] := by
  rw [drawRowEvents, h]

/-- A DRW visits the bits of its rows, row by row. -/
theorem drawEvents_eq_flatMap (n : Nat) :
    drawEvents s x0 y0 base n = (List.range n).flatMap fun r => drawRowEvents s x0 y0 base r 8 := rfl

/-- A sprite of one row more is visited in full up to that row, and then the row. -/
theorem drawEvents_succ (n : Nat) : drawEvents s x0 y0 base (n + 1) = drawEventsBefore s x0 y0 base n 8 := by
  rw [drawEventsBefore, drawEvents_eq_flatMap, drawEvents_eq_flatMap, List.range_succ, List.flatMap_append,
    List.flatMap_singleton]

/-- One bit more of a drawn row is visited after the others. -/
theorem drawRowEvents_succ {r row : Nat} (h : drawRowOf s.cfg y0 r = some row) (k : Nat) :
    drawRowEvents s x0 y0 base r (k + 1) = drawRowEvents s x0 y0 base r k ++
      [(row, drawColOf s.cfg x0 k, spriteBit (Memory.read s.mem (base + r)) k)] := by
  rw [drawRowEvents_of_drawn s x0 y0 base h, drawRowEvents_of_drawn s x0 y0 base h, List.range_succ, List.map_append,
    List.map_singleton]

/-! ### The bits on one pixel -/

/-- The bits of a row on one pixel. -/
theorem bitsOn_drawRowEvents (r k row col : Nat) :
    bitsOn row col (drawRowEvents s x0 y0 base r k) =
      ((List.range k).filter fun b => drawHits s.cfg x0 y0 row col r b).map fun b =>
        spriteBit (Memory.read s.mem (base + r)) b := by
  cases hrow : drawRowOf s.cfg y0 r with
  | none =>
    rw [drawRowEvents_of_skipped s x0 y0 base hrow]
    simp [drawHits_of_skipped hrow, bitsOn]
  | some row' =>
    rw [drawRowEvents_of_drawn s x0 y0 base hrow, bitsOn, List.filter_map, List.map_map]
    simp only [drawHits, hrow, Option.some.injEq]
    rfl

/-- The bits of a DRW on one pixel are those the claims speak of (R177). -/
theorem bitsOn_drawEvents (n row col : Nat) :
    bitsOn row col (drawEvents s x0 y0 base n) = drawBitsAt s x0 y0 base n row col := by
  rw [drawEvents_eq_flatMap, bitsOn, List.filter_flatMap, List.map_flatMap, drawBitsAt]
  exact congrArg (List.range n).flatMap (funext fun r => bitsOn_drawRowEvents s x0 y0 base r 8 row col)

/-- The bits of a DRW on one pixel before a visit are those the claims speak of (R177). -/
theorem bitsOn_drawEventsBefore (r b row col : Nat) :
    bitsOn row col (drawEventsBefore s x0 y0 base r b) = drawBitsBefore s x0 y0 base r b row col := by
  rw [drawEventsBefore, bitsOn_append, bitsOn_drawEvents, bitsOn_drawRowEvents, drawBitsBefore]

/-! ### The collision in drawing order -/

/-- A pass from `t` over the bits of one drawn row collides iff some visit does. -/
theorem drawCollides_drawRowEvents {r row : Nat} (hrow : drawRowOf s.cfg y0 r = some row) (t : State) (k : Nat) :
    drawCollides t (drawRowEvents s x0 y0 base r k) = true ↔
      ∃ b < k, spriteBit (Memory.read s.mem (base + r)) b = true ∧
        ((drawRowEvents s x0 y0 base r b).foldl drawEvent t).pixel row (drawColOf s.cfg x0 b) = true := by
  induction k with
  | zero => simp [drawRowEvents_of_drawn s x0 y0 base hrow, drawCollides]
  | succ k ih =>
    rw [drawRowEvents_succ s x0 y0 base hrow, drawCollides_append, Bool.or_eq_true, ih, Nat.exists_lt_succ_right]
    simp [drawCollides, and_comm]

/-- A pass from `t` over a sprite collides iff some visit of a drawn row does. -/
theorem drawCollides_drawEvents (t : State) (n : Nat) :
    drawCollides t (drawEvents s x0 y0 base n) = true ↔
      ∃ r < n, ∃ row, drawRowOf s.cfg y0 r = some row ∧
        ∃ b < 8, spriteBit (Memory.read s.mem (base + r)) b = true ∧
          ((drawEventsBefore s x0 y0 base r b).foldl drawEvent t).pixel row (drawColOf s.cfg x0 b) = true := by
  induction n with
  | zero => simp [drawEvents, drawCollides]
  | succ n ih =>
    rw [drawEvents_succ, drawEventsBefore, drawCollides_append, Bool.or_eq_true, ih, Nat.exists_lt_succ_right]
    refine or_congr_right ?_
    cases hrow : drawRowOf s.cfg y0 n with
    | none => simp [drawRowEvents_of_skipped s x0 y0 base hrow, drawCollides]
    | some row =>
      rw [drawCollides_drawRowEvents s x0 y0 base hrow]
      simp [drawEventsBefore, List.foldl_append]

variable {s}

/-- The first bits of a row are among its eight. -/
theorem drawRowEvents_subset {r b : Nat} (hb : b < 8) :
    drawRowEvents s x0 y0 base r b ⊆ drawRowEvents s x0 y0 base r 8 := by
  cases hrow : drawRowOf s.cfg y0 r with
  | none => rw [drawRowEvents_of_skipped s x0 y0 base hrow]; exact List.nil_subset _
  | some row =>
    rw [drawRowEvents_of_drawn s x0 y0 base hrow, drawRowEvents_of_drawn s x0 y0 base hrow]
    exact List.map_subset _ (List.range_subset.2 hb.le)

/-- What is visited before a bit is visited by the sprite that ends with the bit's row. -/
theorem drawEventsBefore_subset {r b : Nat} (hb : b < 8) :
    drawEventsBefore s x0 y0 base r b ⊆ drawEvents s x0 y0 base (r + 1) := by
  rw [drawEvents_succ]
  exact List.append_subset.2 ⟨List.subset_append_left _ _,
    List.subset_append_of_subset_right _ (drawRowEvents_subset x0 y0 base hb)⟩

/-- A pass up to a visit, from a state with the same grid and pixels, XORs every pixel with the bits before it. -/
theorem pixel_drawEventsBefore (hcfg : s.cfg.wf = true) (hfb : fbShape s.cfg s.fb = true) {t : State}
    (htcfg : t.cfg = s.cfg) (htfb : t.fb = s.fb) {r b : Nat} (hb : b < 8) (row col : Nat) :
    ((drawEventsBefore s x0 y0 base r b).foldl drawEvent t).pixel row col =
      (s.pixel row col ^^ parity (drawBitsBefore s x0 y0 base r b row col)) := by
  have hgrid : ∀ e ∈ drawEventsBefore s x0 y0 base r b, e.1 < t.cfg.gridH ∧ e.2.1 < t.cfg.gridW := fun e he =>
    htcfg ▸ drawEvents_inGrid hcfg (drawEventsBefore_subset x0 y0 base hb he)
  rw [foldl_drawEvent_pixel row col _ (by rw [htcfg, htfb]; exact hfb) hgrid, bitsOn_drawEventsBefore, State.pixel,
    htfb, State.pixel]

/-- A pass from a state with the same grid and pixels collides iff the sprite collides in drawing order (R174, R177). -/
theorem drawCollides_iff (hcfg : s.cfg.wf = true) (hfb : fbShape s.cfg s.fb = true) {t : State}
    (htcfg : t.cfg = s.cfg) (htfb : t.fb = s.fb) (n : Nat) :
    drawCollides t (drawEvents s x0 y0 base n) = true ↔ CollidesInOrder s x0 y0 base n := by
  rw [drawCollides_drawEvents, CollidesInOrder]
  refine exists_congr fun r => and_congr_right fun _ => exists_congr fun row => and_congr_right fun _ =>
    exists_congr fun b => and_congr_right fun hb => and_congr_right fun _ => ?_
  rw [pixel_drawEventsBefore x0 y0 base hcfg hfb htcfg htfb hb]

end Sys2Proof.Machine
end

section
/-!
SUPPORT. DRW's next state, read off its pass in a state with a legal configuration and a framebuffer of the grid's
shape: its pixels, its flag and its frame (42_index_display.md R173-R175).
-/

namespace Sys2Proof.Machine

variable {x y : RegIdx} {n : Nibble} {s t : State}

/-- VF before the first pixel (R174). -/
theorem drawStart_reg_vf (s : State) :
    (drawStart s).reg vf = if s.cfg.drwVfMode = .clearThenOr then 0#8 else s.reg vf := by
  rcases drawStart_cases s with ⟨hmode, hstart⟩ | ⟨hmode, hstart⟩
  · rw [hstart, reg_setReg_same, if_pos hmode]
  · rw [hstart, hmode]; rfl

theorem drawStart_cfg (s : State) : (drawStart s).cfg = s.cfg := by rw [drawStart_eq]

theorem drawStart_fb (s : State) : (drawStart s).fb = s.fb := by rw [drawStart_eq]

/-- DRW's pixels, those outside the grid included: each is XORed with the bits that land on it (R173, R177). -/
theorem execDrw_pixel (hcfg : s.cfg.wf = true) (hfb : fbShape s.cfg s.fb = true) (h : execDrw x y n s = .next t)
    (row col : Nat) :
    t.pixel row col = (s.pixel row col ^^
      parity (drawBitsAt s (s.reg x).toNat (s.reg y).toNat s.i.toNat n.toNat row col)) := by
  have hshape : fbShape (drawStart s).cfg (drawStart s).fb = true := by rw [drawStart_cfg, drawStart_fb]; exact hfb
  have hpass := foldl_drawEvent_pixel row col _ hshape fun e he =>
    (drawStart_cfg s).symm ▸ drawEvents_inGrid hcfg (x0 := (s.reg x).toNat) (y0 := (s.reg y).toNat)
      (base := s.i.toNat) (n := n.toNat) he
  rw [execDrw_eq x y n hcfg] at h
  cases h
  rw [bitsOn_drawEvents, State.pixel, State.pixel, drawStart_fb] at hpass
  exact hpass

/-- DRW leaves a framebuffer of the grid's shape wherever it finds one, whatever the stack and memory are (R33). -/
theorem execDrw_fbShape (hcfg : s.cfg.wf = true) (hfb : fbShape s.cfg s.fb = true)
    (h : execDrw x y n s = .next t) : fbShape s.cfg t.fb = true := by
  rw [execDrw_eq x y n hcfg] at h
  cases h
  rw [redraw_fb, ← drawStart_cfg]
  exact foldl_drawEvent_shape _ _ (by rw [drawStart_cfg, drawStart_fb]; exact hfb)

/-- DRW's flag: the VF it starts from, with bit 0 set iff its pass collides (R174). -/
theorem execDrw_vf (hcfg : s.cfg.wf = true) (h : execDrw x y n s = .next t) :
    t.reg vf = (if s.cfg.drwVfMode = .clearThenOr then 0#8 else s.reg vf) |||
      (if drawCollides (drawStart s) (drawEvents s (s.reg x).toNat (s.reg y).toNat s.i.toNat n.toNat) = true then 1#8
        else 0#8) := by
  rw [execDrw_eq x y n hcfg] at h
  cases h
  rw [redraw_reg, foldl_drawEvent_reg_vf, drawStart_reg_vf]

/-- DRW's frame in a legal configuration: VF, the pixels and the redraw count (R175). -/
theorem execDrw_onlyDrawn (hcfg : s.cfg.wf = true) (h : execDrw x y n s = .next t) : OnlyDrawn s t := by
  obtain ⟨hregs, ht⟩ := execDrw_frame h
  rw [execDrw_fault hcfg h] at ht
  exact ⟨hregs, sameMemory_of_mem_eq (by rw [ht]), ht⟩

/-- DRW requests one redraw (R175). -/
theorem execDrw_redraws (hcfg : s.cfg.wf = true) (h : execDrw x y n s = .next t) : t.redraws = s.redraws + 1 := by
  rw [execDrw_eq x y n hcfg] at h
  cases h
  rw [redraw_redraws, foldl_drawEvent_eq, drawStart_eq]

end Sys2Proof.Machine
end

section
/-!
SUPPORT. A sprite that does not overlap itself (R177): one bit lands on each pixel it draws, and none before it.
-/

namespace Sys2Proof.Machine

/-- Where one number below `n` meets a test, the numbers that meet it are that one. -/
theorem filter_range_eq_singleton {p : Nat → Bool} {n k : Nat} (hk : k < n)
    (hp : ∀ j < n, p j = true ↔ j = k) : (List.range n).filter p = [k] := by
  have hcongr : (List.range n).filter p = (List.range n).filter (· == k) :=
    List.filter_congr fun j hj => by
      rw [Bool.eq_iff_iff, hp j (List.mem_range.1 hj), beq_iff_eq]
  rw [hcongr, List.filter_beq, List.count_eq_one_of_mem List.nodup_range (List.mem_range.2 hk)]
  rfl

/-- Where all but one of the lists of a range are empty, the range's list is that one. -/
theorem flatMap_range_eq {α : Type} {g : Nat → List α} {k : Nat} (n : Nat) (hk : k < n)
    (hg : ∀ j < n, j ≠ k → g j = []) : (List.range n).flatMap g = g k := by
  induction n with
  | zero => exact absurd hk (Nat.not_lt_zero k)
  | succ n ih =>
    rw [List.range_succ, List.flatMap_append, List.flatMap_singleton]
    rcases Nat.lt_succ_iff_lt_or_eq.1 hk with hlt | rfl
    · rw [ih hlt fun j hj => hg j (by omega), hg n (by omega) (by omega), List.append_nil]
    · have hnil : (List.range k).flatMap g = [] :=
        List.flatMap_eq_nil_iff.2 fun j hj =>
          have hlt : j < k := List.mem_range.1 hj
          hg j (hlt.trans hk) hlt.ne
      rw [hnil, List.nil_append]

variable {s : State} {x0 y0 base n r row b : Nat}

/-- The pixel of a drawn bit gets that bit alone. -/
theorem drawBitsAt_eq_singleton (hno : NoSelfOverlap s.cfg n) (hr : r < n) (hb : b < 8)
    (hrow : drawRowOf s.cfg y0 r = some row) :
    drawBitsAt s x0 y0 base n row (drawColOf s.cfg x0 b) = [spriteBit (Memory.read s.mem (base + r)) b] := by
  have hunique : ∀ r' < n, ∀ b' < 8, drawHits s.cfg x0 y0 row (drawColOf s.cfg x0 b) r' b' = true →
      r' = r ∧ b' = b := fun r' hr' b' hb' => eq_of_drawHits hno hr hb hr' hb' hrow
  have hbits : (List.range 8).filter (drawHits s.cfg x0 y0 row (drawColOf s.cfg x0 b) r) = [b] :=
    filter_range_eq_singleton hb fun b' hb' =>
      ⟨fun hit => (hunique r hr b' hb' hit).2, fun h => h ▸ drawHits_iff.2 ⟨hrow, rfl⟩⟩
  rw [drawBitsAt, flatMap_range_eq n hr fun r' hr' hne => ?_, hbits, List.map_singleton]
  rw [List.map_eq_nil_iff, List.filter_eq_nil_iff]
  exact fun b' hb' hit => hne (hunique r' hr' b' (List.mem_range.1 hb') hit).1

/-- No bit lands on the pixel of a drawn bit before it. -/
theorem drawBitsBefore_eq_nil (hno : NoSelfOverlap s.cfg n) (hr : r < n) (hb : b < 8)
    (hrow : drawRowOf s.cfg y0 r = some row) :
    drawBitsBefore s x0 y0 base r b row (drawColOf s.cfg x0 b) = [] := by
  rw [drawBitsBefore, drawBitsAt, List.append_eq_nil_iff, List.flatMap_eq_nil_iff]
  simp only [List.map_eq_nil_iff, List.filter_eq_nil_iff, List.mem_range]
  refine ⟨fun r' hr' b' hb' hit => ?_, fun b' hb' hit => ?_⟩
  · exact hr'.ne (eq_of_drawHits hno hr hb (hr'.trans hr) hb' hrow hit).1
  · exact hb'.ne (eq_of_drawHits hno hr hb hr (hb'.trans hb) hrow hit).2

/-- Where a sprite does not overlap itself, it collides in drawing order iff a set bit lies on a pixel that is lit
before the draw. -/
theorem collidesInOrder_iff_collides (hno : NoSelfOverlap s.cfg n) :
    CollidesInOrder s x0 y0 base n ↔ Collides s x0 y0 base n := by
  rw [CollidesInOrder, Collides]
  refine exists_congr fun r => and_congr_right fun hr => exists_congr fun row => and_congr_right fun hrow =>
    exists_congr fun b => and_congr_right fun hb => and_congr_right fun _ => ?_
  rw [drawBitsBefore_eq_nil hno hr hb hrow, parity, List.foldl_nil, Bool.xor_false]

end Sys2Proof.Machine
end

section
/-!
PROOF. The index register and CLS (42_index_display.md R170, R171): CLS and its loop of pixel writes, by an invariant on
how far the loop has come.
-/

namespace Sys2Proof.Machine

/-- Settles O29: the definition of LD I is its rule. -/
theorem loadIndexSetsI : Obligations.LoadIndexSetsI := fun _ _ => rfl

/-- Settles O30: the grid that CLS leaves is the dark one. -/
theorem clearTurnsEveryPixelOff : Obligations.ClearTurnsEveryPixelOff := fun s =>
  ⟨_, rfl, fbGet_fbFill_false s.cfg, fbFill_shape s.cfg false, rfl, fun _ => rfl, sameMemory_of_mem_eq rfl, rfl⟩

/-- A loop over a range, one `.ok` step at a time: what the start meets and each step carries on, its end meets. -/
theorem foldlM_range_ok {P : Nat → State → Prop} {f : State → Nat → Run} (n : Nat) {s : State} (hstart : P 0 s)
    (hstep : ∀ k < n, ∀ t, P k t → ∃ u, f t k = .ok u ∧ P (k + 1) u) :
    ∃ t, (List.range n).foldlM f s = .ok t ∧ P n t := by
  induction n with
  | zero => exact ⟨s, rfl, hstart⟩
  | succ n ih =>
    obtain ⟨t, ht, hPt⟩ := ih fun k hk => hstep k (hk.trans n.lt_succ_self)
    obtain ⟨u, hu, hPu⟩ := hstep n n.lt_succ_self t hPt
    refine ⟨u, ?_, hPu⟩
    rw [List.range_succ, List.foldlM_append, ht]
    exact (bind_pure _).trans hu

/-- The loop of R171 has come to a coordinate: only pixels have changed, the grid keeps its shape, and every pixel
before the coordinate is off. -/
def ClearedTo (s : State) (row col : Nat) (t : State) : Prop :=
  t = { s with fb := t.fb } ∧ fbShape s.cfg t.fb = true ∧
    ∀ r c, c < s.cfg.gridW → r < row ∨ (r = row ∧ c < col) → t.pixel r c = false

/-- Writing a pixel off moves the loop on by one column. -/
theorem ClearedTo.writePixel {s t : State} {row col : Nat} (h : ClearedTo s row col t) (hr : row < s.cfg.gridH)
    (hc : col < s.cfg.gridW) : ∃ u, writePixelRun row col false t = .ok u ∧ ClearedTo s row (col + 1) u := by
  obtain ⟨ht, hshape, hoff⟩ := h
  have hcfg : t.cfg = s.cfg := by rw [ht]
  refine ⟨{ t with fb := fbSet t.fb row col false }, ?_, by rw [ht], fbSet_shape hshape _ _,
    fun r c hcw hbefore => ?_⟩
  · simp [writePixelRun, pixelWrite, inGrid, hcfg, hr, hc]
  · have hget := fbGet_fbSet hshape hr hc false r c
    by_cases hrc : r = row ∧ c = col
    · exact hget.trans (if_pos hrc)
    · exact (hget.trans (if_neg hrc)).trans (hoff r c hcw (by omega))

/-- The inner loop of R171 clears a row and moves the loop on to the next. -/
theorem ClearedTo.clearRow {s t : State} {row : Nat} (h : ClearedTo s row 0 t) (hr : row < s.cfg.gridH) :
    ∃ u, (List.range t.cfg.gridW).foldlM (fun u col => writePixelRun row col false u) t = .ok u ∧
      ClearedTo s (row + 1) 0 u := by
  have hcfg : t.cfg = s.cfg := by rw [h.1]
  obtain ⟨u, hu, hut, hshape, hoff⟩ := foldlM_range_ok s.cfg.gridW h fun col hc u hcol => hcol.writePixel hr hc
  exact ⟨u, hcfg ▸ hu, hut, hshape, fun r c hcw hbefore => hoff r c hcw (by omega)⟩

/-- A grid that is cleared to its end is the dark one. -/
theorem ClearedTo.eq_fbFill {s t : State} (h : ClearedTo s s.cfg.gridH 0 t) :
    t = { s with fb := fbFill s.cfg false } := by
  obtain ⟨ht, hshape, hoff⟩ := h
  have hfb : t.fb = fbFill s.cfg false := fb_ext hshape (fbFill_shape _ _) fun r c hr hc =>
    (hoff r c hc (.inl hr)).trans (fbGet_fbFill_false _ _ _).symm
  rw [ht, hfb]

/-- R171's loop completes in a state of the invariant, with the dark grid. -/
theorem clearPixels_eq {s : State} (hs : s.wf = true) : clearPixels s = .ok { s with fb := fbFill s.cfg false } := by
  obtain ⟨-, -, -, -, hfb⟩ := (State.wf_iff s).1 hs
  have hstart : ClearedTo s 0 0 s := ⟨rfl, hfb, fun r c _ hbefore => by omega⟩
  obtain ⟨t, ht, hend⟩ := foldlM_range_ok (P := (ClearedTo s · 0)) s.cfg.gridH hstart fun row hr t hrow =>
    hrow.clearRow hr
  rw [← hend.eq_fbFill]
  exact ht

/-- Settles O31: the loop and CLS leave the same grid. -/
theorem clearIsThePixelWriteLoop : Obligations.ClearIsThePixelWriteLoop := fun _ hs => ⟨_, clearPixels_eq hs, rfl⟩

end Sys2Proof.Machine
end

section
/-!
PROOF. DRW (42_index_display.md R172-R177): its coordinates, its pixels, its flag, and a second equal draw.
-/

namespace Sys2Proof.Machine

/-- Settles O32: the two modes of the row, and the bounds of both coordinates. -/
theorem drawCoordinatesStayInGrid : Obligations.DrawCoordinatesStayInGrid := by
  intro c hc x0 y0 r b
  obtain ⟨hw, hh, -⟩ := (Config.wf_iff c).1 hc
  exact ⟨rfl, drawColOf_lt hw x0 b, fun hv => drawRowOf_wrap hv y0 r,
    fun hv hin => (drawRowOf_clip hv y0 r).trans (if_pos hin),
    fun hv hout => (drawRowOf_clip hv y0 r).trans (if_neg (Nat.not_lt.2 hout)), fun _ => drawRowOf_lt hh⟩

/-- Settles O33: DRW's frame, its redraw and its shape. -/
theorem drawRequestsOneRedraw : Obligations.DrawRequestsOneRedraw := by
  intro x y n s hs
  obtain ⟨hcfg, -⟩ := (State.wf_iff s).1 hs
  obtain ⟨t, ht⟩ := exec_has_next (.drw x y n) s
  obtain ⟨-, -, -, htcfg⟩ := exec_constants ht
  exact ⟨t, ht, execDrw_redraws hcfg ht, execDrw_onlyDrawn hcfg ht, htcfg ▸ execDrw_shape hs ht⟩

/-- DRW without rows is its start and its redraw (R173). -/
theorem exec_drw_noRows (x y : RegIdx) (s : State) : exec (.drw x y 0#4) s = .next (redraw (drawStart s)) := rfl

/-- Settles O34: the two starts of DRW. -/
theorem drawOfNoRows : Obligations.DrawOfNoRows := by
  intro x y s
  rw [exec_drw_noRows]
  rcases drawStart_cases s with ⟨hmode, hstart⟩ | ⟨hmode, hstart⟩ <;> rw [hmode, hstart]
  · exact ⟨fun _ => rfl, nofun⟩
  · exact ⟨nofun, fun _ => rfl⟩

/-- Settles O35: the pixels of DRW's pass. -/
theorem drawXorsEverySpriteBit : Obligations.DrawXorsEverySpriteBit := by
  intro x y n s hs
  obtain ⟨hcfg, -, -, -, hfb⟩ := (State.wf_iff s).1 hs
  obtain ⟨t, ht⟩ := exec_has_next (.drw x y n) s
  exact ⟨t, ht, fun row col _ _ => execDrw_pixel hcfg hfb ht row col⟩

/-- Where a sprite does not overlap itself, a drawn bit is XORed into its own pixel (R172, R173). -/
theorem execDrw_pixel_of_drawn {x y : RegIdx} {n : Nibble} {s t : State} (hs : s.wf = true)
    (hno : NoSelfOverlap s.cfg n.toNat) (h : execDrw x y n s = .next t) {r b row : Nat} (hr : r < n.toNat) (hb : b < 8)
    (hrow : drawRowOf s.cfg (s.reg y).toNat r = some row) :
    t.pixel row (drawColOf s.cfg (s.reg x).toNat b) = (s.pixel row (drawColOf s.cfg (s.reg x).toNat b) ^^
      spriteBit (Memory.read s.mem (s.i.toNat + r)) b) := by
  obtain ⟨hcfg, -, -, -, hfb⟩ := (State.wf_iff s).1 hs
  rw [execDrw_pixel hcfg hfb h, drawBitsAt_eq_singleton hno hr hb hrow, parity, List.foldl_cons, List.foldl_nil,
    Bool.false_xor]

/-- Settles O36: the pixel of a drawn bit gets that bit alone. -/
theorem drawFlipsEachPixelOnce : Obligations.DrawFlipsEachPixelOnce := by
  intro x y n s hs hno
  obtain ⟨t, ht⟩ := exec_has_next (.drw x y n) s
  exact ⟨t, ht, fun r b row hr hb hrow => execDrw_pixel_of_drawn hs hno ht hr hb hrow⟩

/-- Settles O37: the pass of DRW collides iff the sprite collides in drawing order. -/
theorem drawFlagIsTheCollision : Obligations.DrawFlagIsTheCollision := by
  intro x y n s hs
  obtain ⟨hcfg, -, -, -, hfb⟩ := (State.wf_iff s).1 hs
  obtain ⟨t, ht⟩ := exec_has_next (.drw x y n) s
  have hpass := drawCollides_iff (s.reg x).toNat (s.reg y).toNat s.i.toNat hcfg hfb (drawStart_cfg s) (drawStart_fb s)
    n.toNat
  refine ⟨t, ht, fun hc => ?_, fun hc => ?_, collidesInOrder_iff_collides⟩
  · rw [execDrw_vf hcfg ht, if_pos (hpass.2 hc)]
    exact apply_ite (· ||| 1#8) _ _ _
  · rw [execDrw_vf hcfg ht, if_neg (mt hpass.1 hc)]
    exact BitVec.or_zero

/-- Settles O38: the second draw XORs the same parities into the same pixels. -/
theorem doubleDrawRestoresThePixels : Obligations.DoubleDrawRestoresThePixels := by
  intro x y x' y' n s t s' u hs ht hfb' hcfg' hmem' hi' hx' hy' hu
  obtain ⟨hcfg, -, -, -, hfb⟩ := (State.wf_iff s).1 hs
  have hwf' : s'.cfg.wf = true := hcfg' ▸ hcfg
  have hshape' : fbShape s'.cfg s'.fb = true := by rw [hcfg', hfb']; exact execDrw_shape hs ht
  have hbits : drawBitsAt s' (s'.reg x').toNat (s'.reg y').toNat s'.i.toNat n.toNat =
      drawBitsAt s (s.reg x).toNat (s.reg y).toNat s.i.toNat n.toNat := by
    unfold drawBitsAt
    rw [hcfg', hmem', hi', hx', hy']
  refine fb_ext (hcfg' ▸ execDrw_fbShape hwf' hshape' hu) hfb fun row col _ _ => ?_
  calc u.pixel row col
      = (s'.pixel row col ^^ parity (drawBitsAt s (s.reg x).toNat (s.reg y).toNat s.i.toNat n.toNat row col)) := by
        rw [execDrw_pixel hwf' hshape' hu, hbits]
    _ = (t.pixel row col ^^ parity (drawBitsAt s (s.reg x).toNat (s.reg y).toNat s.i.toNat n.toNat row col)) := by
        rw [State.pixel, hfb', State.pixel]
    _ = s.pixel row col := by
        rw [execDrw_pixel hcfg hfb ht, Bool.xor_assoc, Bool.xor_self, Bool.xor_false]

/-- Where a sprite does not overlap itself and VF is cleared first, VF is 1 iff a set bit lies on a lit pixel. -/
theorem execDrw_vf_eq_one_iff {x y : RegIdx} {n : Nibble} {s t : State} (hs : s.wf = true)
    (hno : NoSelfOverlap s.cfg n.toNat) (hmode : s.cfg.drwVfMode = .clearThenOr) (h : exec (.drw x y n) s = .next t) :
    t.reg vf = 1#8 ↔ Collides s (s.reg x).toNat (s.reg y).toNat s.i.toNat n.toNat := by
  obtain ⟨t', ht', hset, hclear, hplain⟩ := drawFlagIsTheCollision x y n s hs
  obtain rfl : t = t' := Host.Outcome.next.inj (h.symm.trans ht')
  rw [← hplain hno]
  refine ⟨fun hvf => by_contra fun hc => ?_, fun hc => (hset hc).trans (if_pos hmode)⟩
  have hzero : t.reg vf = 0#8 := (hclear hc).trans (if_pos hmode)
  exact absurd (hvf.symm.trans hzero) (by decide)

/-- Settles O39: the second draw finds a lit pixel under a set bit where the first found a dark one. -/
theorem secondDrawFlagCountsDarkPixels : Obligations.SecondDrawFlagCountsDarkPixels := by
  intro x y n s t u hs hno hmode hx hy ht hu
  obtain ⟨hmem, -, -, htcfg⟩ := exec_constants ht
  have hregs := (execDrw_frame ht).1
  have hi : t.i = s.i := exec_i ht nofun
  rw [execDrw_vf_eq_one_iff (exec_keeps_wf _ s t hs ht) (htcfg ▸ hno) (htcfg ▸ hmode) hu, Collides, hmem, htcfg, hi,
    hregs x hx, hregs y hy]
  refine exists_congr fun r => and_congr_right fun hr => exists_congr fun row => and_congr_right fun hrow =>
    exists_congr fun b => and_congr_right fun hb => and_congr_right fun hbit => ?_
  rw [execDrw_pixel_of_drawn hs hno ht hr hb hrow, hbit, Bool.xor_true, Bool.not_eq_true']

/-- A sprite row with one set bit, over a pixel that is lit: constructed with the byte at FONT_BASE and that pixel in
FB_INIT (R250), and with I loaded. -/
def litUnderSprite : State :=
  { State.reset with mem := [(0x050, 0x80#8)], i := 0x050, fb := fbSet State.reset.fb 0 0 true }

/-- Refutes O40: the first draw of a set bit on a lit pixel turns it off, so the second finds it dark and leaves VF
at 0. -/
theorem not_secondDrawFlagAsR176Says : ¬ Obligations.SecondDrawFlagAsR176Says := by
  intro h
  have hwf : litUnderSprite.wf = true := by decide
  have hbit : spriteBit (Memory.read litUnderSprite.mem (litUnderSprite.i.toNat + 0)) 0 = true := by decide
  obtain ⟨t, u, ht, hu, hdark⟩ : ∃ t u, exec (.drw 0 1 1) litUnderSprite = .next t ∧
      exec (.drw 0 1 1) t = .next u ∧ u.reg vf = 0#8 := ⟨_, _, rfl, rfl, by decide⟩
  have hset : u.reg vf = 1#8 := (h 0 1 1 litUnderSprite t u hwf rfl (by decide) (by decide) ht hu).2
    ⟨0, by decide, 0, rfl, 0, by decide, hbit⟩
  exact absurd (hdark.symm.trans hset) (by decide)

end Sys2Proof.Machine
end

section
/-!
PROOF. Errors (60_exceptions.md R200, R207, R211): what a step can do to the latch, said once; the raise and the halted
core; the step answer's codes (R220); and the size checks of construction (R251).
-/

namespace Sys2Proof.Machine

/-- Settles O7: a halted core has no step, and a tick is an update of the timers. -/
theorem haltedCoreHasNoStep : Obligations.HaltedCoreHasNoStep :=
  ⟨fun _ _ => rfl, fun _ _ hlatched => ⟨step_of_fault hlatched, rfl⟩⟩

/-- What a step of a running core can do to the latch in a legal configuration: it stays empty, or one of the three
errors of R201, R202 and R206 is raised after the fetch advance with nothing else changed. -/
theorem step_fault_cases {s t : State} (hcfg : s.cfg.wf = true) (hrun : s.fault = none) (h : step s = .next t) :
    t.fault = none ∨ ∃ e, t = { s with pc := s.pc + 2#16, fault := some e } ∧
      (e = .stackUnderflow ∨ e = .stackOverflow ∨ e = .illegalInstruction) := by
  cases hfetched : s.fetched with
  | error err =>
    cases (step_of_fetched_error hrun hfetched).symm.trans h
    exact .inr ⟨_, rfl, .inr (.inr rfl)⟩
  | ok i =>
    have hexec : exec i s.advance = .next t := (step_of_fetched_ok hrun hfetched).symm.trans h
    rcases exec_fault_cases (s := s.advance) hcfg hexec with hkept | ⟨-, -, ht⟩ | ⟨-, -, ht⟩
    · exact .inl (hkept.trans hrun)
    · exact .inr ⟨_, ht, .inl rfl⟩
    · exact .inr ⟨_, ht, .inr (.inl rfl)⟩

/-- Settles O9: a raising step is one of the three raises, whose pc is the fetch address advanced by 2. -/
theorem raisedErrorsArePrecise : Obligations.RaisedErrorsArePrecise := by
  intro s t e hs hrun hstep hlatched
  obtain ⟨hcfg, -, -, -, -⟩ := (State.wf_iff s).1 hs
  rcases step_fault_cases hcfg hrun hstep with hnone | ⟨e', rfl, hkind⟩
  · cases hnone.symm.trans hlatched
  · cases hlatched
    have haddr : s.pc + 2#16 - 2#16 = s.pc := BitVec.add_sub_cancel _ _
    exact ⟨rfl, haddr, congrArg (fun a : Word => Memory.read2 s.mem a.toNat) haddr, hkind⟩

/-- With no error latched the step answer is 0 (R220). -/
theorem stepAnswer_of_no_fault {s : State} (h : s.fault = none) : s.stepAnswer = 0 := by
  rw [State.stepAnswer, h]

/-- With an error latched the step answer is its code (R220). -/
theorem stepAnswer_of_fault {s : State} {e : ErrorKind} (h : s.fault = some e) : s.stepAnswer = e.code := by
  rw [State.stepAnswer, h]

/-- Settles O60: the answer is the code of the latched error, and the codes are those of R200. -/
theorem stepAnswersCarryTheCodes : Obligations.StepAnswersCarryTheCodes := fun _ =>
  ⟨stepAnswer_of_no_fault, stepAnswer_of_fault, stepAnswer_of_fault, stepAnswer_of_fault, stepAnswer_of_fault,
    stepAnswer_of_fault, stepAnswer_of_fault, stepAnswer_of_fault⟩

/-- Settles O55: the program's limit is 4096 − 0x200 = 3584 bytes, the font's 0x200 − 0x050 = 432. -/
theorem constructionChecksSizesInOrder : Obligations.ConstructionChecksSizesInOrder := by
  intro p
  refine ⟨fun hlarge => if_pos hlarge, fun hfits hlarge => ?_, fun hfits hfont => ?_⟩
  · exact (if_neg (Nat.not_lt.2 hfits)).trans (if_pos hlarge)
  · exact ⟨_, (if_neg (Nat.not_lt.2 hfits)).trans (if_neg (Nat.not_lt.2 hfont))⟩

end Sys2Proof.Machine
end

section
/-!
PROOF. The display adapter's pixel calls (60_exceptions.md R216, R217): each checks the grid, and inside it a write
changes one pixel.
-/

namespace Sys2Proof.Machine

/-- The check of the pixel calls is R224's: both coordinates in range. -/
theorem inGrid_iff (c : Config) (row col : Nat) : inGrid c row col = true ↔ row < c.gridH ∧ col < c.gridW := by
  rw [inGrid, Bool.and_eq_true, decide_eq_true_iff, decide_eq_true_iff]

/-- Settles O41: the grid check decides both calls, and a write into a framebuffer of the grid's shape is read back
at its own pixel alone. -/
theorem pixelCallsCheckTheGrid : Obligations.PixelCallsCheckTheGrid := by
  intro row col b s hs
  obtain ⟨-, -, -, -, hshape⟩ := (State.wf_iff s).1 hs
  rw [← inGrid_iff]
  refine ⟨fun hin => ?_, fun hout => ⟨if_neg hout, if_neg hout⟩⟩
  obtain ⟨hrow, hcol⟩ := (inGrid_iff _ _ _).1 hin
  exact ⟨if_pos hin, _, if_pos hin, rfl, fbGet_fbSet hshape hrow hcol b⟩

end Sys2Proof.Machine
end

section
/-!
PROOF. Timers and schedules (60_exceptions.md R213, R214; 70_reset_and_hazards.md R259): one tick, any number of them,
and their place in a schedule. One equation says all of it: a schedule does what it does without its ticks, and then
each timer is its starting value lowered once per tick.
-/

namespace Sys2Proof.Machine

/-- One decrement lowers a timer by one, stopping at 0 (R213). -/
theorem decTimer_toNat (b : Byte) : (decTimer b).toNat = b.toNat - 1 := by
  by_cases hb : b = 0#8
  · subst hb
    rfl
  · rw [decTimer, if_neg hb]
    bv_omega

/-- Settles O51: each timer is decremented, and a tick is an update of the two timers. -/
theorem tickDecrementsEachTimer : Obligations.TickDecrementsEachTimer :=
  fun s => ⟨decTimer_toNat s.dt, decTimer_toNat s.st, rfl⟩

/-- `n` decrements lower a timer by `n`, stopping at 0 (R213). -/
theorem decTimer_iterate_toNat (n : Nat) : ∀ b : Byte, (decTimer^[n] b).toNat = b.toNat - n := by
  induction n with
  | zero => intro b; rfl
  | succ n ih =>
    intro b
    rw [Function.iterate_succ_apply, ih, decTimer_toNat, Nat.sub_sub, Nat.add_comm 1 n]

/-- The state with each timer lowered `n` times. -/
def State.lowerTimers (n : Nat) (s : State) : State := s.withTimers (decTimer^[n] s.dt) (decTimer^[n] s.st)

/-- The events of a schedule that are no ticks, in their order. -/
def withoutTicks (es : List Event) : List Event := es.filter fun e => decide (e ≠ Event.tick)

/-- A step leaves the timers as they are (R29). -/
theorem step_timers {s t : State} (h : step s = .next t) : t.dt = s.dt ∧ t.st = s.st :=
  step_keeps (P := fun u => u.dt = s.dt ∧ u.st = s.st) (fun _ hu => hu) (fun _ _ hu => hu)
    (fun _ _ _ ⟨hdt, hst⟩ hexec =>
      have ⟨_, hdt', hst', _⟩ := exec_constants hexec
      ⟨hdt'.trans hdt, hst'.trans hst⟩)
    ⟨rfl, rfl⟩ h

/-- After the termination signal the ticks of the schedule lower the timers, and nothing else happens (R225; log
entry 21). -/
theorem afterTermination_eq_lowerTimers (es : List Event) : ∀ s : State,
    afterTermination es s = s.lowerTimers (es.count .tick) := by
  induction es with
  | nil => intro s; rfl
  | cons e es ih =>
    intro s
    cases e with
    | tick => rw [List.count_cons_self, afterTermination, ih]; rfl
    | step => exact ih s
    | terminate => exact ih s

/-- The timers it ends with aside, a schedule does the same whatever the timers it starts with (R259). -/
theorem runEvents_withTimers (a b : Byte) (es : List Event) : ∀ (d e : Byte) (s : State),
    mapNext (State.withTimers a b) (runEvents es (s.withTimers d e)) =
      mapNext (State.withTimers a b) (runEvents es s) := by
  induction es with
  | nil => intro d e s; rfl
  | cons ev es ih =>
    intro d e s
    cases ev with
    | step =>
      rw [runEvents, runEvents, stepsIgnoreTheTimers d e s]
      cases step s with
      | next t => exact ih d e t
      | fault | refused => rfl
    | tick => exact ih (decTimer d) (decTimer e) (tick s)
    | terminate => rw [runEvents, runEvents, afterTermination_eq, afterTermination_eq es s]; rfl

/-- A schedule does what it does without its ticks, and each timer ends as its starting value lowered once per tick
(R214). -/
theorem runEvents_eq_withoutTicks (es : List Event) : ∀ s : State,
    runEvents es s = mapNext (State.withTimers (decTimer^[es.count .tick] s.dt) (decTimer^[es.count .tick] s.st))
      (runEvents (withoutTicks es) s) := by
  induction es with
  | nil => intro s; rfl
  | cons ev es ih =>
    intro s
    cases ev with
    | step =>
      have hes : withoutTicks (.step :: es) = .step :: withoutTicks es := rfl
      rw [hes, runEvents, runEvents, List.count_cons_of_ne (by decide)]
      cases hstep : step s with
      | next t =>
        obtain ⟨hdt, hst⟩ := step_timers hstep
        rw [← hdt, ← hst]
        exact ih t
      | fault | refused => rfl
    | tick =>
      rw [List.count_cons_self]
      exact (ih (tick s)).trans (runEvents_withTimers _ _ _ (decTimer s.dt) (decTimer s.st) s)
    | terminate =>
      have hes : withoutTicks (.terminate :: es) = .terminate :: withoutTicks es := rfl
      rw [hes, runEvents, runEvents, List.count_cons_of_ne (by decide), afterTermination_eq_lowerTimers,
        afterTermination_eq (withoutTicks es)]
      rfl

/-- An outcome whose changed form is a next state is one itself. -/
theorem exists_next_of_mapNext {f : State → State} {o : Host.Outcome State Fault Refusal} {t : State}
    (h : mapNext f o = .next t) : ∃ u, o = .next u ∧ f u = t := by
  cases o with
  | next u => cases h; exact ⟨u, rfl, rfl⟩
  | fault | refused => cases h

/-- Settles O54: the schedule without its ticks ends in a state that differs in the timers alone. -/
theorem tickPlacementIsIrrelevant : Obligations.TickPlacementIsIrrelevant := by
  intro es s t h
  rw [runEvents_eq_withoutTicks] at h
  obtain ⟨u, hu, rfl⟩ := exists_next_of_mapNext h
  exact ⟨u, hu, rfl, decTimer_iterate_toNat _ _, decTimer_iterate_toNat _ _⟩

/-- A schedule of ticks lowers the timers once per tick, and nothing else happens (R213). -/
theorem runEvents_replicate_tick (n : Nat) (s : State) :
    runEvents (List.replicate n .tick) s = .next (s.lowerTimers n) := by
  have hes : withoutTicks (List.replicate n .tick) = [] := List.filter_replicate_of_neg (by decide)
  rw [runEvents_eq_withoutTicks, hes, List.count_replicate_self]
  rfl

/-- The tone is on exactly while ST is above 0 (R30). -/
theorem tone_iff (s : State) : s.tone = true ↔ 0 < s.st.toNat := by
  rw [State.tone, decide_eq_true_iff]
  bv_omega

/-- Settles O52: the schedule lowers each timer n times, and ST lowered by n is above 0 iff n is below ST. -/
theorem timersCountDownToZero : Obligations.TimersCountDownToZero := by
  intro n s
  have hst : (s.lowerTimers n).st.toNat = s.st.toNat - n := decTimer_iterate_toNat n s.st
  refine ⟨_, runEvents_replicate_tick n s, decTimer_iterate_toNat n s.dt, hst, ?_⟩
  rw [tone_iff, hst, Nat.sub_pos_iff_lt]

end Sys2Proof.Machine
end

section
/-!
PROOF. Construction (70_reset_and_hazards.md R250-R253): the machine it makes is `State.reset` with the inputs in
place, its memory is the font and the program over zero, and it meets the machine's invariant.
-/

namespace Sys2Proof.Machine

/-- `State.reset` with the inputs of the construction port in place: what construction makes (R250). -/
def State.constructed (p : ConstructInputs) : State :=
  { State.reset with
    stack := List.replicate p.cfg.stackDepth 0
    dt := p.dtInit
    st := p.stInit
    mem := constructMem p.font p.program
    fb := p.fbInit
    cfg := p.cfg }

/-- Construction answers a machine exactly when font and program fit, and then the one of R250. -/
theorem construct_eq_ok_iff {p : ConstructInputs} {s : State} : construct p = .ok s ↔
    p.program.length ≤ 3584 ∧ p.font.length ≤ 432 ∧ s = .constructed p := by
  obtain ⟨hprogram, hfont, -⟩ := constructionChecksSizesInOrder p
  by_cases hp : p.program.length ≤ 3584
  · by_cases hf : p.font.length ≤ 432
    · have hmade : construct p = .ok (.constructed p) := (if_neg (Nat.not_lt.2 hp)).trans (if_neg (Nat.not_lt.2 hf))
      simp [hmade, hp, hf, eq_comm]
    · simp [hfont hp (Nat.not_le.1 hf), hf]
  · simp [hprogram (Nat.not_le.1 hp), hp]

/-! ### The memory image -/

/-- What the image of construction reads (R250, R57): the program from 0x200, the font from 0x050, 0 elsewhere. -/
theorem read_constructMem {font program : List Byte} (hp : program.length ≤ 3584) (hf : font.length ≤ 432) {a : Nat}
    (ha : a < 4096) : Memory.read (constructMem font program) a =
      if 0x200 ≤ a ∧ a < 0x200 + program.length then program.getD (a - 0x200) 0#8
      else if 0x050 ≤ a ∧ a < 0x050 + font.length then font.getD (a - 0x050) 0#8
      else 0#8 := by
  have hfontEnd : fontBase + font.length ≤ memSize := by simp only [fontBase, memSize]; omega
  have hprogramEnd : progBase + program.length ≤ memSize := by simp only [progBase, memSize]; omega
  rw [constructMem, Memory.read_writeBytes program _ _ (Memory.writeBytes_wf font fontBase rfl) hprogramEnd ha,
    Memory.read_writeBytes font _ _ rfl hfontEnd ha]
  rfl

section PlacedBytes

variable {font program : List Byte} (hp : program.length ≤ 3584) (hf : font.length ≤ 432)
include hp hf

/-- The program is at 0x200 (R57). -/
theorem read_constructMem_program {k : Nat} {b : Byte} (hb : program[k]? = some b) :
    Memory.read (constructMem font program) (0x200 + k) = b := by
  obtain ⟨hk, -⟩ := List.getElem?_eq_some_iff.1 hb
  rw [read_constructMem hp hf (by omega), if_pos (by omega), Nat.add_sub_cancel_left, List.getD_eq_getElem?_getD, hb,
    Option.getD_some]

/-- The font is at 0x050, and the program does not reach it (R57). -/
theorem read_constructMem_font {k : Nat} {b : Byte} (hb : font[k]? = some b) :
    Memory.read (constructMem font program) (0x050 + k) = b := by
  obtain ⟨hk, -⟩ := List.getElem?_eq_some_iff.1 hb
  rw [read_constructMem hp hf (by omega), if_neg (by omega), if_pos (by omega), Nat.add_sub_cancel_left,
    List.getD_eq_getElem?_getD, hb, Option.getD_some]

/-- Outside font and program the image is 0 (R57). -/
theorem read_constructMem_unplaced {a : Nat} (ha : a < 4096)
    (hout : a < 0x050 ∨ (0x050 + font.length ≤ a ∧ a < 0x200) ∨ 0x200 + program.length ≤ a) :
    Memory.read (constructMem font program) a = 0#8 := by
  rw [read_constructMem hp hf ha, if_neg (by omega), if_neg (by omega)]

end PlacedBytes

/-! ### The state -/

/-- Every register of the constructed machine is 0 (R39). -/
theorem constructed_reg (p : ConstructInputs) (r : RegIdx) : (State.constructed p).reg r = 0#8 :=
  Vector.getElem_replicate r.isLt

/-- Settles O56: the made machine is the one of R250, and its memory reads the image of the font and the program. -/
theorem constructionLeavesTheImage : Obligations.ConstructionLeavesTheImage := by
  intro p s h
  obtain ⟨hp, hf, rfl⟩ := construct_eq_ok_iff.1 h
  exact ⟨fun _ _ => read_constructMem_font hp hf, fun _ _ => read_constructMem_program hp hf,
    fun _ => read_constructMem_unplaced hp hf, constructed_reg p, rfl, rfl, rfl, rfl, rfl, rfl, rfl, rfl, rfl, rfl⟩

/-- Settles O57: configuration and framebuffer are the legal inputs, the stack is STACK_DEPTH zeros and empty, memory
is written in canonical form, and I is 0. -/
theorem constructedMachineMeetsTheInvariant : Obligations.ConstructedMachineMeetsTheInvariant := by
  intro p s hinputs h
  obtain ⟨-, -, rfl⟩ := construct_eq_ok_iff.1 h
  obtain ⟨hcfg, hshape⟩ : p.cfg.wf = true ∧ fbShape p.cfg p.fbInit = true := Bool.and_eq_true_iff.1 hinputs
  exact ⟨(State.wf_iff _).2 ⟨hcfg, List.length_replicate, Nat.zero_le _, constructMem_wf _ _, hshape⟩, rfl⟩

/-- Settles O58: the base inputs have no font and no program byte, so they fit, and put in place they are the values
`State.reset` holds already. -/
theorem resetIsConstruction : Obligations.ResetIsConstruction :=
  construct_eq_ok_iff.2 ⟨Nat.zero_le _, Nat.zero_le _, rfl⟩

/-- The model's base inputs are legal (R6): the base configuration, and a framebuffer of its grid. -/
theorem constructInputs_base_wf : ConstructInputs.base.wf = true :=
  Bool.and_eq_true_iff.2 ⟨rfl, fbFill_shape Config.base false⟩

/-- Settles O48: the reset state is constructed, from legal inputs. -/
theorem resetMeetsTheInvariant : Obligations.ResetMeetsTheInvariant :=
  constructedMachineMeetsTheInvariant _ _ constructInputs_base_wf resetIsConstruction

end Sys2Proof.Machine
end

section
/-!
PROOF. The idle loop (70_reset_and_hazards.md R261).
-/

namespace Sys2Proof.Machine

/-- Settles O50: the step runs the JP after the fetch advance, and the JP puts pc back to its own address. -/
theorem idleLoopChangesNothing : Obligations.IdleLoopChangesNothing := by
  intro s hrun ⟨nnn, hfetched, hpc⟩
  calc step s = exec (.jp nnn) s.advance := step_of_fetched_ok hrun hfetched
    _ = .next { s.advance with pc := addrWord nnn } := jumpSetsPc nnn s.advance
    _ = .next { s.advance with pc := s.pc } := by rw [hpc]
    _ = .next s := rfl

end Sys2Proof.Machine
end
